-- ==== Sys2Proof/Word.lean ====
section
/-! DEFINITION. The word types of the block: bytes (registers, memory cells, operands; R13, R26) and the
two wider fields the spec gives a width (the 9-bit PC, R17; the 10-bit two's complement fault address, R19). -/

namespace Sys2Proof

/-- An unsigned 8-bit value in [0, 255] (R9, R13). -/
abbrev Byte := BitVec 8

/-- The type of the PC, of `fault_pc`, of a report's PC and of MAR: 9 bits (R17, R19, R20, R22). -/
abbrev Addr := BitVec 9

/-- The type of `fault_addr`: 10 bits, read as two's complement (R19). -/
abbrev SAddr := BitVec 10

/-- A register number that names a register: 0 to 7 (R13, R15). -/
abbrev RegIdx := Fin 8

end Sys2Proof
end

