-- ==== Sys2Proof/Config.lean ====
section
/-! DEFINITION. The implementation parameters of 00_scope.md rule R6: the constants it fixes, and the six values
it lets a model take as arguments (R6, R7). The values this hardware takes stand in Decode.lean (`Config.hw`).
The spec leaves no instruction's result open, so there is no free value. -/

namespace Sys2Proof

/-- R6 `OPC_HLT`, fixed. -/
def opcHlt : Byte := 0x01#8
/-- R6 `OPC_PRN`, fixed. -/
def opcPrn : Byte := 0x47#8
/-- R6 `OPC_LDI`, fixed. -/
def opcLdi : Byte := 0x82#8

/-- R6 `SP_INDEX`, fixed: register 7 is the stack pointer (R14). -/
def spIndex : RegIdx := 7
/-- R6 `SP_RESET`, fixed. -/
def spReset : Byte := 0xF4#8

/-- The parameters a model may take as arguments (R6). -/
structure Config where
  /-- `MEM_SIZE`, the number of memory cells. -/
  memSize  : Nat
  /-- `OPC_MUL`. -/
  opcMul   : Byte
  /-- `OPC_PUSH`. -/
  opcPush  : Byte
  /-- `OPC_POP`. -/
  opcPop   : Byte
  /-- `OPC_ADD`. -/
  opcAdd   : Byte
  /-- `ADD_WIRED`: false reproduces the reference's dispatcher, which never reaches ADD. -/
  addWired : Bool
  deriving DecidableEq, Repr

/-- The seven opcode values, in the order of R47's table. -/
def Config.opcodes (c : Config) : List Byte :=
  [opcHlt, opcPrn, c.opcPush, c.opcPop, opcLdi, c.opcAdd, c.opcMul]

/-- R6's constraints: 1 to 256 cells, the operand count in bits [7:6] of each open opcode, and seven distinct
opcode values. -/
abbrev Config.Valid (c : Config) : Prop :=
  (1 ≤ c.memSize ∧ c.memSize ≤ 256) ∧
  c.opcMul.extractLsb' 6 2 = 0b10#2 ∧ c.opcPush.extractLsb' 6 2 = 0b01#2 ∧
  c.opcPop.extractLsb' 6 2 = 0b01#2 ∧ c.opcAdd.extractLsb' 6 2 = 0b10#2 ∧
  c.opcodes.Nodup

end Sys2Proof
end

