-- ==== Sys2Proof/Syntax.lean ====
section
/-! DEFINITION. The instructions: the closed opcode map of 30_encoding.md rule R47, one constructor per row of
the opcode table. Operands are whole bytes (R48); an index of 8 or more is an instruction like any other, and faults
when it executes (R50). A byte outside the map is no instruction: the fetch reports it (R57). -/

namespace Sys2Proof

/-- The seven instructions (R47), with their operand bytes in the order they are encoded (R46). -/
inductive Instr where
  /-- HLT, format F0 (R73). -/
  | hlt
  /-- PRN, format F1R (R70). -/
  | prn (r : Byte)
  /-- PUSH, format F1R (R71). -/
  | push (r : Byte)
  /-- POP, format F1R (R72). -/
  | pop (r : Byte)
  /-- LDI, format F2RI (R69). -/
  | ldi (r : Byte) (imm : Byte)
  /-- ADD, format F2RR (R67). -/
  | add (a : Byte) (b : Byte)
  /-- MUL, format F2RR (R66). -/
  | mul (a : Byte) (b : Byte)
  deriving DecidableEq, Repr

/-- The number of bytes of an instruction by its format (R44, R46). -/
def Instr.length : Instr → Nat
  | .hlt => 1
  | .prn _ | .push _ | .pop _ => 2
  | .ldi _ _ | .add _ _ | .mul _ _ => 3

end Sys2Proof
end

