-- ==== Sys2Proof/WellFormed.lean ====
section
/-! DEFINITION. Two checks on an instruction. `WellFormed`: it is in the opcode map of the block (R47). `RegisterForm`:
its register operands are register numbers, the form the assembler syntax writes (R51). An instruction that is
well-formed but not in register form decodes and raises InvalidRegisterIndex when it executes (R50). -/

namespace Sys2Proof

/-- The instruction is in the opcode map: ADD is there only when `ADD_WIRED` is true (R47). Operand bytes have no
illegal values (R50). -/
def WellFormed (c : Config) : Instr → Bool
  | .hlt => true
  | .prn _ => true
  | .push _ => true
  | .pop _ => true
  | .ldi _ _ => true
  | .add _ _ => c.addWired
  | .mul _ _ => true

/-- Every register operand is 0 to 7 (R51, R15). LDI's literal is any byte (R48). -/
def RegisterForm : Instr → Bool
  | .hlt => true
  | .prn r => decide (r.toNat < 8)
  | .push r => decide (r.toNat < 8)
  | .pop r => decide (r.toNat < 8)
  | .ldi r _ => decide (r.toNat < 8)
  | .add a b => decide (a.toNat < 8) && decide (b.toNat < 8)
  | .mul a b => decide (a.toNat < 8) && decide (b.toNat < 8)

end Sys2Proof
end

