-- ==== Sys2Proof/Decode.lean ====
section
/-! DEFINITION. The dispatcher and the decoder (30_encoding.md, 40_cycle.md rules R53 and R54): the parameter values of this
hardware, classifying an
opcode byte, the operand count, decoding a list of bytes (total, rejecting by name), and the encoder. -/

namespace Sys2Proof

/-- The values this hardware takes (R6's table). The four opcode values are the spec's own, from general knowledge
(D4, UNVERIFIED, unsafe: log 2); 256 cells and a wired ADD are the spec's decisions D1 and D3 (log 19). -/
def Config.hw : Config :=
  { memSize := 256, opcMul := 0xA2#8, opcPush := 0x45#8, opcPop := 0x46#8, opcAdd := 0xA0#8, addWired := true }

/-- The control instructions with operands (R53). -/
inductive ControlOp where
  | ldi | prn | push | pop
  deriving DecidableEq, Repr

/-- The ALU functions the dispatcher can select (R53, R65). -/
inductive AluOp where
  | mul | add
  deriving DecidableEq, Repr

/-- What the dispatcher makes of an opcode byte (R53). -/
inductive OpClass where
  | halt
  | control (k : ControlOp)
  | alu (f : AluOp)
  | unknown
  deriving DecidableEq, Repr

/-- `Decode(op)` of R53: a whole-byte match against the opcode map (R47, D22). -/
def classify (c : Config) (op : Byte) : OpClass :=
  if op = opcHlt then .halt
  else if op = opcLdi then .control .ldi
  else if op = opcPrn then .control .prn
  else if op = c.opcPush then .control .push
  else if op = c.opcPop then .control .pop
  else if op = c.opcMul then .alu .mul
  else if op = c.opcAdd ∧ c.addWired = true then .alu .add
  else .unknown

/-- The operand-count decoder: `op[7:6]` (R45, R54). -/
def operandCount (op : Byte) : Nat := (op.extractLsb' 6 2).toNat

/-- What decoding a list of bytes answers. -/
inductive Decoded where
  /-- An instruction, and the bytes after it. -/
  | instr (i : Instr) (rest : List Byte)
  /-- The first byte is in no row of the opcode map (R49). -/
  | unknownOpcode (op : Byte)
  /-- The first byte is an instruction's opcode, and operand bytes are missing. -/
  | truncated (op : Byte)
  /-- There is no byte. -/
  | noBytes
  deriving DecidableEq, Repr

/-- Lay the operand bytes of a class out by its format (R46); `none` where too few bytes follow, or the class
is no instruction. -/
def assemble : OpClass → List Byte → Option (Instr × List Byte)
  | .halt, rest => some (.hlt, rest)
  | .control .ldi, r :: v :: rest => some (.ldi r v, rest)
  | .control .prn, r :: rest => some (.prn r, rest)
  | .control .push, r :: rest => some (.push r, rest)
  | .control .pop, r :: rest => some (.pop r, rest)
  | .alu .mul, a :: b :: rest => some (.mul a b, rest)
  | .alu .add, a :: b :: rest => some (.add a b, rest)
  | .control _, _ => none
  | .alu _, _ => none
  | .unknown, _ => none

/-- The decoder: only the opcode byte is decoded for validity (R50). -/
def decode (c : Config) : List Byte → Decoded
  | [] => .noBytes
  | op :: rest =>
    if classify c op = .unknown then .unknownOpcode op
    else
      match assemble (classify c op) rest with
      | some (i, tail) => .instr i tail
      | none => .truncated op

/-- The opcode byte of an instruction (R47). -/
def opcodeOf (c : Config) : Instr → Byte
  | .hlt => opcHlt
  | .prn _ => opcPrn
  | .push _ => c.opcPush
  | .pop _ => c.opcPop
  | .ldi _ _ => opcLdi
  | .add _ _ => c.opcAdd
  | .mul _ _ => c.opcMul

/-- The operand bytes of an instruction, in order (R46, R30). -/
def operandsOf : Instr → List Byte
  | .hlt => []
  | .prn r => [r]
  | .push r => [r]
  | .pop r => [r]
  | .ldi r imm => [r, imm]
  | .add a b => [a, b]
  | .mul a b => [a, b]

/-- The encoder: the bytes of R51's table, lowest address first (R30). -/
def encode (c : Config) (i : Instr) : List Byte := opcodeOf c i :: operandsOf i

/-- The bytes of an instruction numbered as the opcode table numbers them: byte 0 is bits 7 to 0, byte 1 bits 15
to 8, byte 2 bits 23 to 16; every bit at or above `nbits` is 0. Three bytes, the longest instruction (R44). -/
def tableBytes (nbits w : Nat) : List Byte :=
  let v := w % 2 ^ nbits
  [BitVec.ofNat 8 v, BitVec.ofNat 8 (v / 256), BitVec.ofNat 8 (v / 65536)]

/-- The instruction this hardware's decoder reads from a table word; `none` where it refuses. -/
def decodeTableWord (nbits w : Nat) : Option Instr :=
  match decode Config.hw (tableBytes nbits w) with
  | .instr i _ => some i
  | .unknownOpcode _ => none
  | .truncated _ => none
  | .noBytes => none

end Sys2Proof
end

