-- ==== Sys2Proof/Machine/State.lean ====
section
/-! DEFINITION. The state of the block (10_state.md), as plain data, and the state after reset (R24). -/

namespace Sys2Proof.Machine

/-- The run state (R16). -/
inductive RunState where
  | running | halted | faulted | stopped
  deriving DecidableEq, Repr

/-- The 2-bit encoding of the run state the host reads (R16). -/
def RunState.code : RunState → BitVec 2
  | .running => 0
  | .halted => 1
  | .faulted => 2
  | .stopped => 3

/-- The fault codes (R19, R74). -/
inductive FaultCode where
  | none | outOfBoundsAddress | invalidRegisterIndex | unsupportedOperation
  deriving DecidableEq, Repr

/-- The 2-bit encoding of the fault code the host reads (R19, R74). -/
def FaultCode.code : FaultCode → BitVec 2
  | .none => 0
  | .outOfBoundsAddress => 1
  | .invalidRegisterIndex => 2
  | .unsupportedOperation => 3

/-- The fault record (R19). -/
structure FaultRecord where
  /-- `fault_code`. -/
  code        : FaultCode
  /-- `fault_pc`. -/
  pc          : Addr
  /-- `fault_opcode_valid`. -/
  opcodeValid : Bool
  /-- `fault_opcode`. -/
  opcode      : Byte
  /-- `fault_addr`, two's complement. -/
  addr        : SAddr
  /-- `fault_index`. -/
  index       : Byte
  deriving DecidableEq, Repr

/-- The fault record with all fields 0 (R24). -/
def FaultRecord.clear : FaultRecord :=
  { code := .none, pc := 0, opcodeValid := false, opcode := 0, addr := 0, index := 0 }

/-- An InvalidOpcode report (R22). -/
structure Report where
  pc     : Addr
  opcode : Byte
  deriving DecidableEq, Repr

/-- Memory: address and byte pairs, addresses strictly rising, no byte 0 listed (log 3). -/
abbrev Memory := List Host.Cell

/-- What an address that is not listed reads as: 0 (DESIGN CHOICE, unsafe for the image of `State.reset`: log 3).
A list of cells stands for a whole image of MEM_SIZE bytes, so no address is unwritten (R40). -/
def Memory.unlisted : Byte := 0#8

/-- The canonical form of memory: addresses strictly rising, and no entry equal to what an unlisted address reads as. -/
abbrev Memory.wf (m : Memory) : Prop :=
  m.Pairwise (fun x y => x.1 < y.1) ∧ ∀ c ∈ m, c.2 ≠ Memory.unlisted

/-- What the host can give the block at one turn (R25, R96). -/
inductive HostInput where
  /-- `reset`, with the `image` if the host supplies one before reset ends (R40, R90, R91). -/
  | reset (image : Option (List Byte))
  /-- `stop_req`. `after` is how many instruction steps the host's timing lets run before the stop is taken: the
  choice R85 leaves open (log 7). -/
  | stopReq (after : Nat)
  /-- `resume` (R86). -/
  | resume
  deriving DecidableEq, Repr

/-- Why a step has no next state. No instruction ends in one of these: a fault of the spec is a next state in
FAULTED (R79, log 4). -/
inductive Fault where
  /-- Raised by a step whose state has parameter values outside R6's constraints: the spec describes no such
  hardware. Safe: no run reaches it (log 12). -/
  | badParameters
  /-- Raised by a host's reset with an image that is not MEM_SIZE bytes: R40 gives it no effect. Safe: the model
  stops (log 11). -/
  | badImage
  deriving DecidableEq, Repr

/-- Why an instruction is refused. -/
inductive Refusal where
  /-- Raised by an arm of `exec` that has no meaning yet; no arm does. Safe: the model stops. -/
  | notModelled (mnemonic : String)
  deriving DecidableEq, Repr

/-- The state of the block (10_state.md), and two fields of the model's own (`cfg`, `inputs`). -/
structure State where
  /-- R0 to R7; R7 is SP (R13, R14). -/
  regs        : Vector Byte 8
  /-- The program counter (R17). -/
  pc          : Addr
  /-- The run state (R16). -/
  runState    : RunState
  /-- The fault record (R19). -/
  fault       : FaultRecord
  /-- Memory (R23, R26). -/
  mem         : Memory
  /-- The last address accessed (R20); observational. -/
  mar         : Addr
  /-- The last byte read or written (R20); observational. -/
  mdr         : Byte
  /-- The output channel, oldest byte first (R21). -/
  out         : List Byte
  /-- The report channel, oldest report first (R22). -/
  reports     : List Report
  /-- A stop request not yet taken, with the number of instruction steps that still run before it (R85, log 7). -/
  stopPending : Option Nat
  /-- The host's turns still to come, one per step; `none` is a turn at which the host gives nothing, and after
  the list the host gives nothing (R25, R96; DESIGN CHOICE, safe: log 6). -/
  inputs      : List (Option HostInput)
  /-- The parameters of the block (R6, R7; DESIGN CHOICE, safe: log 1). No step changes them. -/
  cfg         : Config
  deriving DecidableEq, Repr

/-- The state right after reset (R24, R90), with the all-zero image (log 3), a host that gives nothing (log 6) and
the parameter values of R6 (log 1). -/
def State.reset : State :=
  { regs := #v[0, 0, 0, 0, 0, 0, 0, spReset]
    pc := 0
    runState := .running
    fault := .clear
    mem := []
    mar := 0
    mdr := 0
    out := []
    reports := []
    stopPending := none
    inputs := []
    cfg := Config.hw }

end Sys2Proof.Machine
end

