-- ==== Sys2Proof/Machine/Ops.lean ====
section
/-! DEFINITION. The named operations over registers, memory, channels and the run state (00_scope.md rule R10);
taking a fault (60_exceptions.md rule R79) and, beside it, what leaves a terminal state: reset (R90; there is no trap
return, R82). -/

namespace Sys2Proof.Machine

/-! ### Memory -/

/-- The byte at an address (R37). -/
def Memory.read : Memory → Nat → Byte
  | [], _ => Memory.unlisted
  | (k, v) :: m, a =>
    if a = k then v
    else if a < k then Memory.unlisted
    else Memory.read m a

/-- Memory with the byte `v` at `a`, in canonical form. -/
def Memory.write : Memory → Nat → Byte → Memory
  | [], a, v => if v = Memory.unlisted then [] else [(a, v)]
  | (k, w) :: m, a, v =>
    if a = k then (if v = Memory.unlisted then m else (a, v) :: m)
    else if a < k then (if v = Memory.unlisted then (k, w) :: m else (a, v) :: (k, w) :: m)
    else (k, w) :: Memory.write m a v

/-- The memory that holds the bytes of an image from address `a` on, in canonical form (R40). -/
def Memory.ofBytes : Nat → List Byte → Memory
  | _, [] => []
  | a, b :: bs =>
    if b = Memory.unlisted then Memory.ofBytes (a + 1) bs
    else (a, b) :: Memory.ofBytes (a + 1) bs

/-- Memory with the bytes laid at `a`, `a + 1`, ... (R30); an address of `limit` or more is no cell and gets
nothing. -/
def Memory.writeBytes (limit : Nat) (m : Memory) : Nat → List Byte → Memory
  | _, [] => m
  | a, b :: bs => Memory.writeBytes limit (if a < limit then m.write a b else m) (a + 1) bs

/-- The bounds check every access makes first (R29): the address as a cell number, or `none` outside
[0, MEM_SIZE - 1]. Addresses are exact integers and never wrap. -/
def inBounds (c : Config) (a : Int) : Option Nat :=
  if 0 ≤ a ∧ a < (c.memSize : Int) then some a.toNat else none

/-! ### Registers, PC, memory port and channels -/

/-- `x[i]` (R10). -/
def State.reg (s : State) (i : RegIdx) : Byte := s.regs[i.val]'i.isLt

/-- `x[i] <- v` (R10). -/
def State.setReg (s : State) (i : RegIdx) (v : Byte) : State :=
  { s with regs := s.regs.set i.val v i.isLt }

/-- SP, which is `x[7]` (R10, R14). -/
def State.sp (s : State) : Byte := s.reg spIndex

/-- `pc <- pc + n` (R58). -/
def State.advance (s : State) (n : Nat) : State := { s with pc := s.pc + BitVec.ofNat 9 n }

/-- Record an access in the memory port: `MAR <- addr; MDR <- value` (R20). -/
def State.touch (s : State) (a : Nat) (v : Byte) : State :=
  { s with mar := BitVec.ofNat 9 a, mdr := v }

/-- The value of `MemRead(a, 1)`; the caller has made the bounds check (R10). -/
def State.load (s : State) (a : Nat) : Byte := s.mem.read a

/-- The state after `MemRead(a, 1)` (R20, R32). -/
def State.afterRead (s : State) (a : Nat) : State := s.touch a (s.load a)

/-- `MemWrite(a, 1, v)`; the caller has made the bounds check (R10, R20). -/
def State.store (s : State) (a : Nat) (v : Byte) : State :=
  { s with mem := s.mem.write a v }.touch a v

/-- `Emit(v)` (R10, R21). -/
def State.emit (s : State) (v : Byte) : State := { s with out := s.out ++ [v] }

/-- `Report(p, op)` with `p` the PC (R10, R22). -/
def State.addReport (s : State) (op : Byte) : State :=
  { s with reports := s.reports ++ [{ pc := s.pc, opcode := op }] }

/-- `state <- S` (R10, R16). -/
def State.setRun (s : State) (r : RunState) : State := { s with runState := r }

/-! ### Faults, stops and reset -/

/-- What a fault is raised with (R10 `raise Fault(code, info)`, R74). -/
inductive FaultCause where
  /-- OUT_OF_BOUNDS_ADDRESS, with the address or SP value out of range (R76). -/
  | outOfBounds (addr : Int)
  /-- INVALID_REGISTER_INDEX, with the operand byte (R77). -/
  | invalidIndex (index : Byte)
  /-- UNSUPPORTED_OPERATION (R78). -/
  | unsupported
  deriving DecidableEq, Repr

/-- The fault code of a cause (R74). -/
def FaultCause.code : FaultCause → FaultCode
  | .outOfBounds _ => .outOfBoundsAddress
  | .invalidIndex _ => .invalidRegisterIndex
  | .unsupported => .unsupportedOperation

/-- `fault_addr` (R79): the address for OUT_OF_BOUNDS_ADDRESS, else 0. -/
def FaultCause.addr : FaultCause → SAddr
  | .outOfBounds a => BitVec.ofInt 10 a
  | .invalidIndex _ => 0
  | .unsupported => 0

/-- `fault_index` (R79): the operand for INVALID_REGISTER_INDEX, else 0. -/
def FaultCause.index : FaultCause → Byte
  | .outOfBounds _ => 0
  | .invalidIndex r => r
  | .unsupported => 0

/-- The record of a fault (R79) raised at `p`; `op` is the opcode byte if it was fetched. -/
def faultRecord (c : FaultCause) (p : Addr) (op : Option Byte) : FaultRecord :=
  { code := c.code, pc := p, opcodeValid := op.isSome, opcode := op.getD 0, addr := c.addr, index := c.index }

/-- Taking a fault (R79): the run state becomes FAULTED and the record is written; nothing else changes (R80). The
PC still holds the faulting instruction's address. -/
def State.raise (s : State) (c : FaultCause) (op : Option Byte) : State :=
  { s with runState := .faulted, fault := faultRecord c s.pc op }

/-- The unknown-opcode step (R57): one report, and one byte skipped. -/
def State.skipUnknown (s : State) (op : Byte) : State := (s.addReport op).advance 1

/-- The stop step (R85): RUNNING becomes STOPPED and the request is no longer pending. -/
def State.takeStop (s : State) : State := { s with runState := .stopped, stopPending := none }

/-- A stop request arrives (R85): it is pending in RUNNING, with the host's timing; in any other state it does
nothing. A second request brings the timing in place of the first (DESIGN CHOICE, safe: log 8). -/
def State.requestStop (s : State) (after : Nat) : State :=
  match s.runState with
  | .running => { s with stopPending := some after }
  | .halted => s
  | .faulted => s
  | .stopped => s

/-- `resume` (R86): STOPPED becomes RUNNING; in any other state nothing. -/
def State.resume (s : State) : State :=
  match s.runState with
  | .stopped => s.setRun .running
  | .running => s
  | .halted => s
  | .faulted => s

/-- `reset` (R90): the state of R24; memory, the parameters and the host's further turns stay. A stop request still
pending is dropped (DEDUCED from R92, safe: log 9). -/
def State.applyReset (s : State) : State :=
  { State.reset with mem := s.mem, inputs := s.inputs, cfg := s.cfg }

end Sys2Proof.Machine
end

