-- ==== Sys2Proof/Machine/Operands.lean ====
section
/-! DEFINITION. The operand forms (30_encoding.md rule R48): a register index, which is a whole byte checked when the
instruction executes, and an 8-bit literal, which is the byte itself. PUSH and POP address memory through SP, with
the bounds check of R29. And the frame every `Execute` part stands in: it ends done, or raises a fault (R59). -/

namespace Sys2Proof.Machine

/-- The register an index byte names: 0 to 7; a byte of 8 or more names none, and is not masked (R15). -/
def regIndex? (r : Byte) : Option RegIdx :=
  if h : r.toNat < 8 then some ⟨r.toNat, h⟩ else none

/-- How the `Execute` part of an instruction ends (R59). -/
inductive Executed where
  /-- All of its effect is in the state; the PC is not yet advanced. -/
  | done (s : State)
  /-- It raised a fault; the state is as before, but for MAR and MDR (R80). -/
  | raised (c : FaultCause) (s : State)
  deriving DecidableEq, Repr

/-- The index check, before any access of the instruction (R68, R63): an index of 8 or more raises
INVALID_REGISTER_INDEX with the operand byte (R77). -/
def withReg (r : Byte) (s : State) (k : RegIdx → Executed) : Executed :=
  match regIndex? r with
  | some i => k i
  | none => .raised (.invalidIndex r) s

/-- The bounds check on a stack address or a new SP (R29, R71, R72): outside memory it raises
OUT_OF_BOUNDS_ADDRESS with that value (R76). -/
def withCell (a : Int) (s : State) (k : Nat → Executed) : Executed :=
  match inBounds s.cfg a with
  | some n => k n
  | none => .raised (.outOfBounds a) s

/-- The end of an instruction step (R58, R59, R79): an instruction that is done advances the PC past its opcode and
its `n` operand bytes; one that raised takes the fault, with its opcode byte in the record. -/
def finish (op : Byte) (n : Nat) : Executed → Host.Outcome State Fault Refusal
  | .done s => .next (s.advance (n + 1))
  | .raised c s => .next (s.raise c (some op))

/-- The address a PUSH stores to: SP - 1, as an exact integer (R71). -/
def pushAddress (s : State) : Int := (s.sp.toNat : Int) - 1

/-- The address a POP reads: SP (R72). -/
def popAddress (s : State) : Int := (s.sp.toNat : Int)

/-- The SP a POP leaves, as an exact integer: the SP that stands after the register write, plus 1 (R72, D20; log 16). -/
def popNewSp (i : RegIdx) (v : Byte) (s : State) : Int :=
  ((if i = spIndex then v else s.sp).toNat : Int) + 1

end Sys2Proof.Machine
end

