-- ==== Sys2Proof/Machine/Flags.lean ====
section
/-! DEFINITION. The flag computations of the spec: there are none. The block has no flags, condition codes or
predicate registers, and no instruction sets or tests one (10_state.md rule R18, D26); no overflow, carry or zero
indication of an ALU result is kept anywhere (41_alu.md rule R64). What stands here is the width rule in their place. -/

namespace Sys2Proof.Machine

/-- An ALU result, an exact natural number, reduced modulo 256 into a byte (R64). Nothing else of it is kept. -/
def narrow (n : Nat) : Byte := BitVec.ofNat 8 (n % 256)

end Sys2Proof.Machine
end

