-- ==== Sys2Proof/Machine/Alu.lean ====
section
/-! DEFINITION. The ALU and its two instructions, MUL and ADD (41_alu.md). -/

namespace Sys2Proof.Machine

/-- The ALU's function select (R63). The dispatcher sends it only a function it has (R65); `other` is the select
R78 keeps UNSUPPORTED_OPERATION for, and no instruction gives it (DESIGN CHOICE, safe: log 13). -/
inductive AluSelect where
  | function (f : AluOp)
  | other
  deriving DecidableEq, Repr

/-- The exact integer result of a function, reduced modulo 256 (R63, R64). -/
def aluResult (f : AluOp) (va vb : Byte) : Byte :=
  match f with
  | .mul => narrow (va.toNat * vb.toNat)
  | .add => narrow (va.toNat + vb.toNat)

/-- `ALUApply` (R63): both indices are checked, `a` first; both registers are read before `x[a]` is written. -/
def aluApply (f : AluSelect) (a b : Byte) (s : State) : Executed :=
  withReg a s fun i =>
  withReg b s fun j =>
    match f with
    | .function g => .done (s.setReg i (aluResult g (s.reg i) (s.reg j)))
    | .other => .raised .unsupported s

/-- MUL (R66). -/
def execMul (a b : Byte) (s : State) : Host.Outcome State Fault Refusal :=
  finish s.cfg.opcMul 2 (aluApply (.function .mul) a b s)

/-- ADD (R67). -/
def execAdd (a b : Byte) (s : State) : Host.Outcome State Fault Refusal :=
  finish s.cfg.opcAdd 2 (aluApply (.function .add) a b s)

end Sys2Proof.Machine
end

