-- ==== Sys2Proof/Machine/Control.lean ====
section
/-! DEFINITION. The control instructions LDI, PRN, PUSH, POP and HLT (42_control.md). Each is the part of the
instruction step after the fetch: the PC holds the opcode's address, and is advanced last (R58). -/

namespace Sys2Proof.Machine

/-- LDI (R69). -/
def execLdi (r imm : Byte) (s : State) : Host.Outcome State Fault Refusal :=
  finish opcLdi 2 <|
    withReg r s fun i => .done (s.setReg i imm)

/-- PRN (R70). -/
def execPrn (r : Byte) (s : State) : Host.Outcome State Fault Refusal :=
  finish opcPrn 1 <|
    withReg r s fun i => .done (s.emit (s.reg i))

/-- PUSH (R71): `x[r]` is read after SP is written, so `PUSH R7` stores the decremented SP (D20; log 16). -/
def execPush (r : Byte) (s : State) : Host.Outcome State Fault Refusal :=
  finish s.cfg.opcPush 1 <|
    withReg r s fun i =>
    withCell (pushAddress s) s fun a =>
      let s1 := s.setReg spIndex (BitVec.ofNat 8 a)
      .done (s1.store a (s1.reg i))

/-- POP (R72): the read is made before the check of the new SP; `x[r]` is written, then SP. -/
def execPop (r : Byte) (s : State) : Host.Outcome State Fault Refusal :=
  finish s.cfg.opcPop 1 <|
    withReg r s fun i =>
    withCell (popAddress s) s fun a =>
      let v := s.load a
      let s1 := s.afterRead a
      withCell (popNewSp i v s) s1 fun t =>
        .done ((s1.setReg i v).setReg spIndex (BitVec.ofNat 8 t))

/-- HLT (R73): the run state becomes HALTED; the PC stays. -/
def execHlt (s : State) : Host.Outcome State Fault Refusal :=
  .next (s.setRun .halted)

end Sys2Proof.Machine
end

