-- ==== Sys2Proof/Machine/Fetch.lean ====
section
/-! DEFINITION. The fetch half of the instruction step (40_cycle.md rules R55, R56, R57 and R59), up to `Execute`. -/

namespace Sys2Proof.Machine

/-- How fetching operand bytes ends. -/
inductive Operands where
  /-- The bytes, in order, and the state after the reads. -/
  | bytes (bs : List Byte) (s : State)
  /-- A byte lies outside memory; the state has taken the fault (R56). -/
  | faulted (s : State)
  deriving DecidableEq, Repr

/-- Read `n` operand bytes at `pc + i`, `pc + i + 1`, ... in that order, each bounds-checked first (R56). -/
def fetchOperands (op : Byte) : Nat → Nat → State → Operands
  | _, 0, s => .bytes [] s
  | i, n + 1, s =>
    match inBounds s.cfg ((s.pc.toNat : Int) + i) with
    | none => .faulted (s.raise (.outOfBounds ((s.pc.toNat : Int) + i)) (some op))
    | some a =>
      match fetchOperands op (i + 1) n (s.afterRead a) with
      | .bytes bs t => .bytes (s.load a :: bs) t
      | .faulted t => .faulted t

/-- How the fetch half ends. -/
inductive Fetched where
  /-- An instruction to execute, in the state after its bytes were read. -/
  | instr (i : Instr) (s : State)
  /-- The step is over: a fault was taken (R55, R56), or an unknown opcode reported and skipped (R57). -/
  | ended (s : State)
  /-- The operand count does not fit the opcode's format: only parameter values outside R6 give this. -/
  | misfit
  deriving DecidableEq, Repr

/-- The fetch half of `InstructionStep` (R59): check the PC, read and classify the opcode, read the operand bytes. -/
def fetch (s : State) : Fetched :=
  match inBounds s.cfg (s.pc.toNat : Int) with
  | none => .ended (s.raise (.outOfBounds (s.pc.toNat : Int)) none)
  | some p =>
    let op := s.load p
    let s1 := s.afterRead p
    if classify s.cfg op = .unknown then .ended (s1.skipUnknown op)
    else
      match fetchOperands op 1 (operandCount op) s1 with
      | .faulted t => .ended t
      | .bytes bs t =>
        match decode s.cfg (op :: bs) with
        | .instr i _ => .instr i t
        | .unknownOpcode _ => .misfit
        | .truncated _ => .misfit
        | .noBytes => .misfit

end Sys2Proof.Machine
end

