-- ==== Sys2Proof/Machine/HostPort.lean ====
section
/-! DEFINITION. The block's interface to the host (10_state.md rule R25, 70_reset_and_hazards.md rule R96): whose turn
it is at a step, the host's moves, and what the host reads out. -/

namespace Sys2Proof.Machine

/-- The move a step makes (R12 "Step", R60, R85). -/
inductive Turn where
  /-- The host gives an input. -/
  | host (m : HostInput) (s : State)
  /-- The engine takes an instruction step from this state. -/
  | instruction (s : State)
  /-- The engine takes no instruction step; this is the state after the step. -/
  | noInstruction (s : State)
  deriving DecidableEq, Repr

/-- The engine's move (R60, R85): in RUNNING a stop request whose time has come, else an instruction step; in the
other run states nothing, and the state stays as it is (DESIGN CHOICE, safe: log 5). -/
def engineTurn (s : State) : Turn :=
  match s.runState with
  | .running =>
    match s.stopPending with
    | none => .instruction s
    | some 0 => .noInstruction s.takeStop
    | some (k + 1) => .instruction { s with stopPending := some k }
  | .halted => .noInstruction s
  | .faulted => .noInstruction s
  | .stopped => .noInstruction s

/-- The move of the next step: the host's input for this turn if it gives one, else the engine's (R85, R96). -/
def nextTurn (s : State) : Turn :=
  match s.inputs with
  | [] => engineTurn s
  | none :: later => engineTurn { s with inputs := later }
  | some m :: later => .host m { s with inputs := later }

/-- What a host input does (R85, R86, R90, R91, R96). An image must be MEM_SIZE bytes (R40; log 11). -/
def hostMove (m : HostInput) (s : State) : Host.Outcome State Fault Refusal :=
  match m with
  | .reset none => .next s.applyReset
  | .reset (some image) =>
    if image.length = s.cfg.memSize then .next { s with mem := Memory.ofBytes 0 image }.applyReset
    else .fault .badImage
  | .stopReq after => .next (s.requestStop after)
  | .resume => .next s.resume

/-- The `state` channel: always readable (R25, R16). -/
def readState (s : State) : BitVec 2 := s.runState.code

/-- The `fault` channel: always readable (R25, R19). -/
def readFault (s : State) : FaultRecord := s.fault

/-- The `out` channel: the bytes so far, in order; reading takes nothing away (R21, R96; log 17). -/
def readOut (s : State) : List Byte := s.out

/-- The `report` channel: the reports so far, in order (R22, R96). -/
def readReports (s : State) : List Report := s.reports

/-- What the `debug read` channel shows (R25, R86). -/
structure DebugView where
  regs   : Vector Byte 8
  pc     : Addr
  memory : List Byte
  deriving DecidableEq, Repr

/-- The `debug read` channel: registers, PC and every memory cell, whenever the run state is not RUNNING (R25, R96). -/
def debugRead (s : State) : Option DebugView :=
  match s.runState with
  | .running => none
  | .halted | .faulted | .stopped =>
    some { regs := s.regs, pc := s.pc, memory := (List.range s.cfg.memSize).map s.mem.read }

end Sys2Proof.Machine
end

