-- ==== Sys2Proof/Machine/Step.lean ====
section
/-! DEFINITION. One step of the block (R12 "Step"): an instruction step (R59), or one state change of the host's. -/

namespace Sys2Proof.Machine

/-- The instruction step (R59): fetch, then execute. -/
def instructionStep (s : State) : Host.Outcome State Fault Refusal :=
  match fetch s with
  | .instr i t => exec i t
  | .ended t => .next t
  | .misfit => .fault .badParameters

/-- One step of the block. Parameter values outside R6's constraints are no hardware of the spec: the step faults
(DESIGN CHOICE, safe: log 12). -/
def step (s : State) : Host.Outcome State Fault Refusal :=
  if s.cfg.Valid then
    match nextTurn s with
    | .host m t => hostMove m t
    | .instruction t => instructionStep t
    | .noInstruction t => .next t
  else .fault .badParameters

/-- The state with an instruction of the opcode table, numbered as the table numbers its bits, stored at the PC, and
the block RUNNING with no stop pending and the host silent, so that the next step fetches and runs it. It stands for
the host's image (R40; log 15). -/
def State.withFetchWord (s : State) (nbits w : Nat) : State :=
  { s with
    mem := Memory.writeBytes s.cfg.memSize s.mem s.pc.toNat (tableBytes nbits w)
    runState := .running
    stopPending := none
    inputs := [] }

end Sys2Proof.Machine
end

