-- ==== Sys2Proof/Safety.lean ====
section
/-! DEFINITION. The terms claims are stated in: the invariant of the reachable states, equality of states but for the
observational memory port, and the end of a run (70_reset_and_hazards.md rule R97). -/

namespace Sys2Proof.Machine

/-- The state without the observational registers MAR and MDR. A claim must not depend on them (R20, D16, U15), so
claims about a next state compare states this way. -/
def State.erasePort (s : State) : State := { s with mar := 0, mdr := 0 }

/-- The bytes of memory from the PC to the last cell, lowest address first (R30). -/
def State.codeAtPc (s : State) : List Byte :=
  (List.range (s.cfg.memSize - s.pc.toNat)).map fun k => s.mem.read (s.pc.toNat + k)

/-- The host gives no reset at this turn. -/
def State.NoReset (s : State) : Prop := ∀ image later, s.inputs ≠ some (.reset image) :: later

/-- The fault record fits the run state (R19): NONE, with every field 0, exactly when the run state is not FAULTED;
else the record names the PC and, if it was fetched, the opcode byte there, and fills the field of its code with an
address outside memory or an index of 8 or more. UNSUPPORTED_OPERATION never occurs (R65, R78). -/
structure State.FaultRecordFits (s : State) : Prop where
  none    : s.fault.code = .none → s.runState ≠ .faulted ∧ s.fault = .clear
  taken   : s.fault.code ≠ .none → s.runState = .faulted ∧ s.fault.pc = s.pc ∧
              s.fault.opcode = if s.fault.opcodeValid then s.mem.read s.pc.toNat else 0
  address : s.fault.code = .outOfBoundsAddress → s.fault.index = 0 ∧
              (s.fault.addr.toInt = -1 ∨ (s.cfg.memSize : Int) ≤ s.fault.addr.toInt) ∧ s.fault.addr.toInt ≤ 256 ∧
              (s.fault.opcodeValid = false → s.fault.addr.toInt = s.pc.toNat)
  index   : s.fault.code = .invalidRegisterIndex → s.fault.addr = 0 ∧ s.fault.opcodeValid = true ∧
              8 ≤ s.fault.index.toNat
  closed  : s.fault.code ≠ .unsupportedOperation

/-- The invariant every step keeps: the parameters meet R6's constraints; memory is in canonical form and has no cell
at MEM_SIZE or above (R26); the PC is at most MEM_SIZE (R17); the fault record fits the run state (R19). -/
structure State.Inv (s : State) : Prop where
  params : s.cfg.Valid
  memory : s.mem.wf
  cells  : ∀ c ∈ s.mem, c.1 < s.cfg.memSize
  pc     : s.pc.toNat ≤ s.cfg.memSize
  fault  : s.FaultRecordFits

/-- The next step is an instruction step taken at this very state: RUNNING, no stop pending, and the host silent. -/
structure State.AtInstruction (s : State) : Prop where
  running : s.runState = .running
  noStop  : s.stopPending = none
  silent  : s.inputs = []

/-- The next step is an instruction step, and it starts from `u`: RUNNING, no stop due, and the host silent at this
turn (R60, R85). `u` is the state with this turn used up (log 6) and a pending stop one instruction nearer (log 7). -/
structure State.RunsInstruction (s u : State) : Prop where
  running : s.runState = .running
  silent  : s.inputs = none :: u.inputs ∨ s.inputs = [] ∧ u.inputs = []
  stop    : s.stopPending = u.stopPending.map (· + 1)
  same    : u = { s with inputs := u.inputs, stopPending := u.stopPending }

/-- The run ended cleanly (R97). -/
abbrev State.EndedClean (s : State) : Prop := s.runState = .halted

/-- The run ended in a fault: not a clean end (R97). -/
abbrev State.EndedFaulted (s : State) : Prop := s.runState = .faulted

end Sys2Proof.Machine
end

