-- ==== Sys2Proof/Certificates/Slice0/Obligations.lean ====
section
/-! DEFINITION. The statements for the provers. A next state is compared with `State.erasePort`, since no claim may
read MAR or MDR (10_state.md rule R20). -/

open Sys2Proof Sys2Proof.Machine

/-- The record of an INVALID_REGISTER_INDEX fault at the PC of `s`, with opcode `op` and operand byte `r` (R79). -/
abbrev Sys2Proof.Machine.indexFault (s : State) (op r : Byte) : FaultRecord :=
  { code := .invalidRegisterIndex, pc := s.pc, opcodeValid := true, opcode := op, addr := 0, index := r }

/-- Decoding an encoded instruction gives it back. For every parameter values that meet R6, every instruction of the
opcode map with every operand byte, and any bytes after it, the decoder reads the instruction from its encoding and
leaves the bytes after it. (R44, R46, R47, R53) -/
def Obligations.DecodeOfEncode : Prop :=
  ∀ (c : Config) (i : Instr) (rest : List Byte), c.Valid → WellFormed c i = true →
    decode c (encode c i ++ rest) = .instr i rest

/-- What decodes is the encoding of an instruction of the opcode map. For every parameter values and bytes, if the
decoder answers an instruction and a rest, then the instruction is in the opcode map and the bytes are its encoding
followed by the rest. (R46, R47, R49) -/
def Obligations.EncodeOfDecode : Prop :=
  ∀ (c : Config) (bytes : List Byte) (i : Instr) (rest : List Byte), decode c bytes = .instr i rest →
    WellFormed c i = true ∧ bytes = encode c i ++ rest

/-- The bytes of the syntax table decode to their instructions. With the parameter values of this hardware a byte
sequence of each row of R51 decodes to the instruction it stands for, the same seven words numbered as the opcode
table numbers them do, and 0xA0 is unknown when ADD is not wired. (R47, R51) -/
def Obligations.OpcodeTableWords : Prop :=
  decode Config.hw [0x01#8] = .instr .hlt [] ∧
  decode Config.hw [0x47#8, 0x05#8] = .instr (.prn 5#8) [] ∧
  decode Config.hw [0x45#8, 0x02#8, 0xFF#8] = .instr (.push 2#8) [0xFF#8] ∧
  decode Config.hw [0x46#8, 0x09#8] = .instr (.pop 9#8) [] ∧
  decode Config.hw [0x82#8, 0x03#8, 0xFF#8] = .instr (.ldi 3#8 255#8) [] ∧
  decode Config.hw [0xA0#8, 0x02#8, 0x03#8] = .instr (.add 2#8 3#8) [] ∧
  decode Config.hw [0xA2#8, 0x00#8, 0x01#8] = .instr (.mul 0#8 1#8) [] ∧
  decodeTableWord 8 0x01 = some .hlt ∧
  decodeTableWord 16 0x0547 = some (.prn 5#8) ∧
  decodeTableWord 16 0x0245 = some (.push 2#8) ∧
  decodeTableWord 16 0x0946 = some (.pop 9#8) ∧
  decodeTableWord 24 0xFF0382 = some (.ldi 3#8 255#8) ∧
  decodeTableWord 24 0x0302A0 = some (.add 2#8 3#8) ∧
  decodeTableWord 24 0x0100A2 = some (.mul 0#8 1#8) ∧
  decode { Config.hw with addWired := false } [0xA0#8, 0x00#8, 0x01#8] = .unknownOpcode 0xA0#8

/-- The dispatcher classifies every byte by a whole-byte match. With parameter values that meet R6, each class comes
from exactly its opcode byte (ADD only when wired), and a byte that is none of them is unknown. (R53) -/
def Obligations.DispatcherMatchesWholeByte : Prop :=
  ∀ (c : Config) (op : Byte), c.Valid →
    (classify c op = .halt ↔ op = 0x01#8) ∧
    (classify c op = .control .ldi ↔ op = 0x82#8) ∧
    (classify c op = .control .prn ↔ op = 0x47#8) ∧
    (classify c op = .control .push ↔ op = c.opcPush) ∧
    (classify c op = .control .pop ↔ op = c.opcPop) ∧
    (classify c op = .alu .mul ↔ op = c.opcMul) ∧
    (classify c op = .alu .add ↔ op = c.opcAdd ∧ c.addWired = true) ∧
    (classify c op = .unknown ↔ op ≠ 0x01#8 ∧ op ≠ 0x82#8 ∧ op ≠ 0x47#8 ∧ op ≠ c.opcPush ∧ op ≠ c.opcPop ∧
      op ≠ c.opcMul ∧ ¬ (op = c.opcAdd ∧ c.addWired = true))

/-- The length of an instruction is 1 + opcode[7:6]. With parameter values that meet R6, a known opcode needs exactly
op[7:6] operand bytes: with fewer the decoder says they are missing, with as many or more it answers an instruction
of length 1 + op[7:6] and leaves the rest; HALT needs 0 and every ALU opcode 2. (R44, R54) -/
def Obligations.OperandCountRule : Prop :=
  ∀ (c : Config) (op : Byte) (bytes : List Byte), c.Valid → classify c op ≠ .unknown →
    (bytes.length < operandCount op → decode c (op :: bytes) = .truncated op) ∧
    (operandCount op ≤ bytes.length →
      ∃ i, decode c (op :: bytes) = .instr i (bytes.drop (operandCount op)) ∧ i.length = 1 + operandCount op) ∧
    operandCount op = op.toNat / 64 ∧
    (classify c op = .halt → operandCount op = 0) ∧
    (∀ f, classify c op = .alu f → operandCount op = 2)

/-- There are 249 unknown opcodes, 250 without ADD. With parameter values that meet R6, 249 of the 256 byte values are
unknown opcodes when ADD is wired, and 250 when it is not. (R49) -/
def Obligations.UnknownOpcodeCount : Prop :=
  ∀ c : Config, c.Valid →
    ((List.range 256).filter fun n => classify c (BitVec.ofNat 8 n) = .unknown).length =
      if c.addWired = true then 249 else 250

/-- Every byte from 0xC0 to 0xFF is an unknown opcode. With parameter values that meet R6, a byte of 0xC0 or more is
classified unknown and the decoder rejects it by name, whatever follows. (R49, R54) -/
def Obligations.HighOpcodesUnknown : Prop :=
  ∀ (c : Config) (op : Byte) (bytes : List Byte), c.Valid → 0xC0 ≤ op.toNat →
    classify c op = .unknown ∧ decode c (op :: bytes) = .unknownOpcode op

/-- A step runs the instruction the decoder reads at the PC. In RUNNING, at a turn at which the host gives nothing and
no stop is due, whatever stop is pending and whatever turns come later: if the bytes of memory from the PC on decode
to an instruction, the step is exec of that instruction, at the state the engine starts from (the turn used up, a
pending stop one instruction nearer, all else as it is), which the fetch has changed in MAR and MDR alone; the PC
still holds the opcode address. With no stop pending and no turn to come that state is this very state. At every
such turn the step is the instruction step from the state the engine starts from, so what other statements say of
the instruction step they say of the step; and the instruction step from any state decodes and executes in the same
way. The list of turns and the count of a pending stop are the model's choices (log 6, log 7). (R56, R59, R85) -/
def Obligations.StepRunsDecoded : Prop :=
  (∀ (s u : State) (i : Instr) (rest : List Byte), s.cfg.Valid → s.RunsInstruction u →
    decode s.cfg s.codeAtPc = .instr i rest →
    ∃ t : State, t.erasePort = u.erasePort ∧ step s = exec i t) ∧
  (∀ s u : State, s.cfg.Valid → s.RunsInstruction u → step s = instructionStep u) ∧
  (∀ s : State, s.AtInstruction → s.RunsInstruction s) ∧
  (∀ (s : State) (i : Instr) (rest : List Byte), s.cfg.Valid → decode s.cfg s.codeAtPc = .instr i rest →
    ∃ t : State, t.erasePort = s.erasePort ∧ instructionStep s = exec i t)

/-- What a RUNNING block does at a turn the host leaves to it. In RUNNING, at a turn at which the host gives nothing:
with no stop pending the step is the instruction step; with a stop pending whose time has come the step only makes
STOPPED; otherwise the step is the instruction step and the stop is one instruction nearer. The count of instruction
steps before a stop is the model's form of the timing R85 leaves open (log 7), and the turn list its form of the
host (log 6). (R60, R85) -/
def Obligations.EngineTurn : Prop :=
  ∀ (s : State) (later : List (Option HostInput)), s.cfg.Valid → s.runState = .running →
    (s.inputs = none :: later ∨ s.inputs = [] ∧ later = []) →
    (s.stopPending = none → step s = instructionStep { s with inputs := later }) ∧
    (s.stopPending = some 0 →
      step s = .next { s with inputs := later, runState := .stopped, stopPending := none }) ∧
    (∀ k, s.stopPending = some (k + 1) →
      step s = instructionStep { s with inputs := later, stopPending := some k })

/-- A PC outside memory faults before the opcode fetch. From every state, whatever stop is pending and whatever turns of
the host come later: if the PC is MEM_SIZE or more, the instruction step takes OUT_OF_BOUNDS_ADDRESS with the PC as
fault_addr and no opcode in the record, and changes nothing else. (R55, R76, R79) -/
def Obligations.OpcodeFetchBound : Prop :=
  ∀ s : State, s.cfg.Valid → s.cfg.memSize ≤ s.pc.toNat →
    ∃ t : State, instructionStep s = .next t ∧ t.fault.addr.toInt = s.pc.toNat ∧
      t.erasePort = State.erasePort { s with
        runState := .faulted
        fault := { code := .outOfBoundsAddress, pc := s.pc, opcodeValid := false, opcode := 0,
                   addr := t.fault.addr, index := 0 } }

/-- The first operand byte outside memory faults, before any index check. From every state, whatever stop is pending and
whatever turns of the host come later: if the opcode at the PC is known and needs a byte at pc + k, k at least 1,
outside memory, with every byte before it in memory, the instruction step takes OUT_OF_BOUNDS_ADDRESS with
fault_addr = pc + k and the opcode in the record, whatever the operand bytes that were read, and changes nothing
else but the port. (R56, R76, R79, R81) -/
def Obligations.OperandFetchBound : Prop :=
  ∀ (s : State) (k : Nat), s.cfg.Valid →
    classify s.cfg (s.mem.read s.pc.toNat) ≠ .unknown →
    1 ≤ k → k ≤ operandCount (s.mem.read s.pc.toNat) →
    s.cfg.memSize ≤ s.pc.toNat + k → (∀ j < k, s.pc.toNat + j < s.cfg.memSize) →
    ∃ t : State, instructionStep s = .next t ∧ t.fault.addr.toInt = s.pc.toNat + k ∧
      t.erasePort = State.erasePort { s with
        runState := .faulted
        fault := { code := .outOfBoundsAddress, pc := s.pc, opcodeValid := true, opcode := s.mem.read s.pc.toNat,
                   addr := t.fault.addr, index := 0 } }

/-- An unknown opcode is reported once and skipped by one byte. From every RUNNING state, whatever stop is pending and
whatever turns of the host come later: if the byte at the PC is an unknown opcode, the instruction step appends the
report (pc, op), adds 1 to the PC, and changes nothing else: the run state stays RUNNING, the fault record, the
registers and memory are as before. (R57, R75) -/
def Obligations.UnknownOpcodeStep : Prop :=
  ∀ s : State, s.cfg.Valid → s.runState = .running → s.pc.toNat < s.cfg.memSize →
    classify s.cfg (s.mem.read s.pc.toNat) = .unknown →
    ∃ t : State, instructionStep s = .next t ∧ t.pc.toNat = s.pc.toNat + 1 ∧ t.runState = .running ∧
      t.erasePort = State.erasePort { s with
        pc := s.pc + 1
        reports := s.reports ++ [{ pc := s.pc, opcode := s.mem.read s.pc.toNat }] }

/-- HLT makes HALTED and leaves all else. HLT answers a next state in every state: the run state is HALTED and
everything else, the PC with it, is unchanged. (R73) -/
def Obligations.HltResult : Prop :=
  ∀ s : State, ∃ t : State, exec .hlt s = .next t ∧
    t.erasePort = State.erasePort { s with runState := .halted }

/-- LDI writes the literal to the register. For every register number 0 to 7 and every literal byte, in every state, LDI
answers a next state: the register holds the literal, the PC is 3 further, everything else is unchanged. (R69) -/
def Obligations.LdiResult : Prop :=
  ∀ (r imm : Byte) (s : State) (h : r.toNat < 8), ∃ t : State, exec (.ldi r imm) s = .next t ∧
    t.erasePort = State.erasePort { s with regs := s.regs.set r.toNat imm h, pc := s.pc + 3 }

/-- PRN appends the register to the output channel. For every register number 0 to 7, in every state, PRN answers a next
state: the output channel has the register's value appended, the PC is 2 further, everything else is unchanged.
(R70) -/
def Obligations.PrnResult : Prop :=
  ∀ (r : Byte) (s : State) (h : r.toNat < 8), ∃ t : State, exec (.prn r) s = .next t ∧
    t.erasePort = State.erasePort { s with out := s.out ++ [s.regs[r.toNat]], pc := s.pc + 2 }

/-- PUSH decrements SP and stores the register there. For every register number 0 to 7, if SP - 1 lies in memory, PUSH
answers a next state: SP is one less, the cell at the new SP holds the register as it stands after SP was written
(so PUSH R7 stores the decremented SP), the PC is 2 further, everything else is unchanged. (R71) -/
def Obligations.PushResult : Prop :=
  ∀ (r : Byte) (s : State) (h : r.toNat < 8), 1 ≤ s.regs[7].toNat → s.regs[7].toNat - 1 < s.cfg.memSize →
    ∃ t : State, exec (.push r) s = .next t ∧
      t.erasePort = State.erasePort { s with
        regs := s.regs.set 7 (s.regs[7] - 1)
        mem := s.mem.write (s.regs[7].toNat - 1) ((s.regs.set 7 (s.regs[7] - 1))[r.toNat]'h)
        pc := s.pc + 2 }

/-- POP loads the register from SP and increments SP. If SP lies in memory: for a register number 0 to 6, when SP + 1
lies in memory, POP answers a next state in which the register holds the byte at SP and SP is one more; for register
7, when the byte at SP plus 1 lies in memory, SP is that byte plus 1. The PC is 2 further; everything else is
unchanged. (R72) -/
def Obligations.PopResult : Prop :=
  ∀ (r : Byte) (s : State), s.regs[7].toNat < s.cfg.memSize →
    (∀ h : r.toNat < 7, s.regs[7].toNat + 1 < s.cfg.memSize →
      ∃ t : State, exec (.pop r) s = .next t ∧
        t.erasePort = State.erasePort { s with
          regs := (s.regs.set r.toNat (s.mem.read s.regs[7].toNat) (by omega)).set 7 (s.regs[7] + 1)
          pc := s.pc + 2 }) ∧
    (r.toNat = 7 → (s.mem.read s.regs[7].toNat).toNat + 1 < s.cfg.memSize →
      ∃ t : State, exec (.pop r) s = .next t ∧
        t.erasePort = State.erasePort { s with
          regs := s.regs.set 7 (s.mem.read s.regs[7].toNat + 1)
          pc := s.pc + 2 })

/-- MUL writes the product modulo 256 to its first register. For register numbers a and b from 0 to 7, equal or not, in
every state, MUL answers a next state: register a holds the exact product of the two old values reduced modulo 256,
the PC is 3 further, everything else is unchanged. (R66, R63, R64) -/
def Obligations.MulResult : Prop :=
  ∀ (a b : Byte) (s : State) (ha : a.toNat < 8) (hb : b.toNat < 8), ∃ t : State, exec (.mul a b) s = .next t ∧
    (t.regs[a.toNat]).toNat = (s.regs[a.toNat].toNat * s.regs[b.toNat].toNat) % 256 ∧
    t.erasePort = State.erasePort { s with regs := s.regs.set a.toNat t.regs[a.toNat] ha, pc := s.pc + 3 }

/-- ADD writes the sum modulo 256 to its first register. For register numbers a and b from 0 to 7, equal or not, in
every state, ADD answers a next state: register a holds the exact sum of the two old values reduced modulo 256, the
PC is 3 further, everything else is unchanged. (R67, R63, R64) -/
def Obligations.AddResult : Prop :=
  ∀ (a b : Byte) (s : State) (ha : a.toNat < 8) (hb : b.toNat < 8), ∃ t : State, exec (.add a b) s = .next t ∧
    (t.regs[a.toNat]).toNat = (s.regs[a.toNat].toNat + s.regs[b.toNat].toNat) % 256 ∧
    t.erasePort = State.erasePort { s with regs := s.regs.set a.toNat t.regs[a.toNat] ha, pc := s.pc + 3 }

/-- A register index of 8 or more faults. LDI, PRN, PUSH and POP with an index of 8 or more, and MUL and ADD with a
first index of 8 or more, or a first index below 8 and a second of 8 or more, take INVALID_REGISTER_INDEX in every
state (whatever SP is), with that operand byte as fault_index and the opcode in the record, and change nothing else;
LDI never faults for its literal. (R77) -/
def Obligations.IndexFault : Prop :=
  (∀ (r : Byte) (s : State), 8 ≤ r.toNat →
    (∀ imm, ∃ t : State, exec (.ldi r imm) s = .next t ∧
      t.erasePort = State.erasePort { s with runState := .faulted, fault := indexFault s 0x82#8 r }) ∧
    (∃ t : State, exec (.prn r) s = .next t ∧
      t.erasePort = State.erasePort { s with runState := .faulted, fault := indexFault s 0x47#8 r }) ∧
    (∃ t : State, exec (.push r) s = .next t ∧
      t.erasePort = State.erasePort { s with runState := .faulted, fault := indexFault s s.cfg.opcPush r }) ∧
    (∃ t : State, exec (.pop r) s = .next t ∧
      t.erasePort = State.erasePort { s with runState := .faulted, fault := indexFault s s.cfg.opcPop r })) ∧
  (∀ (a b bad : Byte) (s : State), (8 ≤ a.toNat ∧ bad = a) ∨ (a.toNat < 8 ∧ 8 ≤ b.toNat ∧ bad = b) →
    (∃ t : State, exec (.mul a b) s = .next t ∧
      t.erasePort = State.erasePort { s with runState := .faulted, fault := indexFault s s.cfg.opcMul bad }) ∧
    (∃ t : State, exec (.add a b) s = .next t ∧
      t.erasePort = State.erasePort { s with runState := .faulted, fault := indexFault s s.cfg.opcAdd bad })) ∧
  (∀ (r imm : Byte) (s t : State), r.toNat < 8 → exec (.ldi r imm) s = .next t → t.fault = s.fault)

/-- PUSH faults when SP - 1 is not in memory. For a register number 0 to 7, if SP is 0, PUSH takes OUT_OF_BOUNDS_ADDRESS
with fault_addr -1; if SP - 1 is MEM_SIZE or more, with fault_addr SP - 1. Nothing else changes: SP does not wrap.
(R71, R76) -/
def Obligations.PushStackFault : Prop :=
  ∀ (r : Byte) (s : State), r.toNat < 8 →
    (s.regs[7] = 0 ∨ s.cfg.memSize ≤ s.regs[7].toNat - 1) →
    ∃ t : State, exec (.push r) s = .next t ∧ t.fault.addr.toInt = (s.regs[7].toNat : Int) - 1 ∧
      t.erasePort = State.erasePort { s with
        runState := .faulted
        fault := { code := .outOfBoundsAddress, pc := s.pc, opcodeValid := true, opcode := s.cfg.opcPush,
                   addr := t.fault.addr, index := 0 } }

/-- POP faults when SP or the new SP is not in memory. For a register number 0 to 7, if SP is MEM_SIZE or more, POP
takes OUT_OF_BOUNDS_ADDRESS with SP as fault_addr; if SP lies in memory and the new SP (the popped byte plus 1 for
register 7, SP plus 1 otherwise) is MEM_SIZE or more, with the new SP. Registers, memory and SP are as before. (R72,
R76) -/
def Obligations.PopStackFault : Prop :=
  ∀ (r : Byte) (s : State) (bad : Nat), r.toNat < 8 →
    (s.cfg.memSize ≤ s.regs[7].toNat ∧ bad = s.regs[7].toNat ∨
      s.regs[7].toNat < s.cfg.memSize ∧ s.cfg.memSize ≤ bad ∧
        bad = (if r.toNat = 7 then s.mem.read s.regs[7].toNat else s.regs[7]).toNat + 1) →
    ∃ t : State, exec (.pop r) s = .next t ∧ t.fault.addr.toInt = bad ∧
      t.erasePort = State.erasePort { s with
        runState := .faulted
        fault := { code := .outOfBoundsAddress, pc := s.pc, opcodeValid := true, opcode := s.cfg.opcPop,
                   addr := t.fault.addr, index := 0 } }

/-- The first check that fails is the one raised. When the instruction step from a RUNNING state, whatever stop is
pending and whatever turns of the host come later, answers a next state: a PC outside memory gives
OUT_OF_BOUNDS_ADDRESS with no opcode; else a known opcode with an operand byte outside memory gives
OUT_OF_BOUNDS_ADDRESS with fault_addr MEM_SIZE, whatever its other operand byte; else an instruction with a register
operand of 8 or more gives INVALID_REGISTER_INDEX, whatever SP is; else only PUSH and POP can fault, with
OUT_OF_BOUNDS_ADDRESS. (R56, R77, R81) -/
def Obligations.FirstFailingCheck : Prop :=
  ∀ s t : State, s.cfg.Valid → s.runState = .running → instructionStep s = .next t →
    (s.cfg.memSize ≤ s.pc.toNat → t.fault.code = .outOfBoundsAddress ∧ t.fault.opcodeValid = false) ∧
    (s.pc.toNat < s.cfg.memSize → classify s.cfg (s.mem.read s.pc.toNat) ≠ .unknown →
      s.cfg.memSize ≤ s.pc.toNat + operandCount (s.mem.read s.pc.toNat) →
      t.runState = .faulted ∧ t.fault.code = .outOfBoundsAddress ∧ t.fault.addr.toInt = s.cfg.memSize) ∧
    (∀ i rest, decode s.cfg s.codeAtPc = .instr i rest → RegisterForm i = false →
      t.runState = .faulted ∧ t.fault.code = .invalidRegisterIndex) ∧
    (∀ i rest, decode s.cfg s.codeAtPc = .instr i rest → RegisterForm i = true → t.runState = .faulted →
      t.fault.code = .outOfBoundsAddress ∧ ∃ r, i = .push r ∨ i = .pop r)

/-- Frame of LDI, MUL and ADD. When LDI, MUL or ADD answers a next state: every register but its first operand's is
unchanged, every byte of memory, both channels, a pending stop, the host's turns and the parameters are unchanged;
and either the run state and the fault record are unchanged, or it took a fault and no register and not the PC
changed. (R28, R63, R66, R67, R69) -/
def Obligations.LdiMulAddFrame : Prop :=
  ∀ (dest other : Byte) (i : Instr) (s t : State), i = .ldi dest other ∨ i = .mul dest other ∨ i = .add dest other →
    exec i s = .next t →
    (∀ j : RegIdx, j.val ≠ dest.toNat → t.reg j = s.reg j) ∧ (∀ a, t.mem.read a = s.mem.read a) ∧
    t.out = s.out ∧ t.reports = s.reports ∧ t.stopPending = s.stopPending ∧ t.inputs = s.inputs ∧ t.cfg = s.cfg ∧
    (t.runState = s.runState ∧ t.fault = s.fault ∨ t.runState = .faulted ∧ t.regs = s.regs ∧ t.pc = s.pc)

/-- Frame of PRN and HLT. When PRN or HLT answers a next state: every register, every byte of memory, the report
channel, a pending stop, the host's turns and the parameters are unchanged. PRN appends at most one byte to the
output channel, and none if it faults; it changes the run state and the fault record only by a fault. HLT changes
the run state alone. (R28, R70, R73) -/
def Obligations.PrnHltFrame : Prop :=
  ∀ (i : Instr) (s t : State), i = .hlt ∨ (∃ r, i = .prn r) → exec i s = .next t →
    (∀ j : RegIdx, t.reg j = s.reg j) ∧ (∀ a, t.mem.read a = s.mem.read a) ∧
    t.reports = s.reports ∧ t.stopPending = s.stopPending ∧ t.inputs = s.inputs ∧ t.cfg = s.cfg ∧
    (i = .hlt → t.out = s.out ∧ t.fault = s.fault ∧ t.pc = s.pc ∧ t.runState = .halted) ∧
    (i ≠ .hlt → (t.runState = s.runState ∧ t.fault = s.fault ∧ ∃ v, t.out = s.out ++ [v]) ∨
      t.runState = .faulted ∧ t.out = s.out ∧ t.pc = s.pc)

/-- Frame of PUSH, and what a later read sees. When PUSH answers a next state from a memory in canonical form: every
register but R7, both channels, a pending stop, the host's turns and the parameters are unchanged; every byte of
memory outside the address it stores to, SP - 1, reads as before. Either it did not fault, and the byte there reads
as the register PUSH names after SP was written, which every later fetch of that address then reads; or it faulted,
and every byte and every register reads as before. (R28, R39, R71, R94) -/
def Obligations.PushFrame : Prop :=
  ∀ (r : Byte) (s t : State), s.mem.wf → exec (.push r) s = .next t →
    (∀ j : RegIdx, j ≠ 7 → t.reg j = s.reg j) ∧
    (∀ a : Nat, (a : Int) ≠ pushAddress s → t.mem.read a = s.mem.read a) ∧
    t.out = s.out ∧ t.reports = s.reports ∧ t.stopPending = s.stopPending ∧ t.inputs = s.inputs ∧ t.cfg = s.cfg ∧
    (t.runState = s.runState ∧ t.fault = s.fault ∧
        (∀ a : Nat, (a : Int) = pushAddress s → ∀ h : r.toNat < 8, t.mem.read a = t.reg ⟨r.toNat, h⟩) ∨
      t.runState = .faulted ∧ t.regs = s.regs ∧ t.pc = s.pc ∧ ∀ a, t.mem.read a = s.mem.read a)

/-- Frame of POP. When POP answers a next state: every register but the one it names and R7 is unchanged, every byte of
memory, both channels, a pending stop, the host's turns and the parameters are unchanged; and either the run state
and the fault record are unchanged, or it took a fault and no register and not the PC changed. (R28, R72) -/
def Obligations.PopFrame : Prop :=
  ∀ (r : Byte) (s t : State), exec (.pop r) s = .next t →
    (∀ j : RegIdx, j.val ≠ r.toNat → j ≠ 7 → t.reg j = s.reg j) ∧ (∀ a, t.mem.read a = s.mem.read a) ∧
    t.out = s.out ∧ t.reports = s.reports ∧ t.stopPending = s.stopPending ∧ t.inputs = s.inputs ∧ t.cfg = s.cfg ∧
    (t.runState = s.runState ∧ t.fault = s.fault ∨ t.runState = .faulted ∧ t.regs = s.regs ∧ t.pc = s.pc)

/-- Faults are precise. When the instruction step from a RUNNING state, whatever stop is pending and whatever turns of
the host come later, answers a next state in FAULTED, that state is the one before but for the run state, the fault
record and the observational port: no register, memory cell, channel or PC write. The record names the PC, a cause,
and the opcode byte exactly when the PC lies in memory; fields its code does not fill are 0. (R80) -/
def Obligations.FaultIsPrecise : Prop :=
  ∀ s t : State, s.cfg.Valid → s.runState = .running → instructionStep s = .next t → t.runState = .faulted →
    t.erasePort = State.erasePort { s with runState := .faulted, fault := t.fault } ∧
    t.fault.code ≠ .none ∧ t.fault.pc = s.pc ∧
    t.fault.opcodeValid = decide (s.pc.toNat < s.cfg.memSize) ∧
    t.fault.opcode = (if s.pc.toNat < s.cfg.memSize then s.mem.read s.pc.toNat else 0) ∧
    (t.fault.code ≠ .outOfBoundsAddress → t.fault.addr = 0) ∧
    (t.fault.code ≠ .invalidRegisterIndex → t.fault.index = 0)

/-- How the PC advances. When the instruction step from a RUNNING state, whatever stop is pending and whatever turns of
the host come later, answers a next state that is RUNNING, the PC is exactly 1 plus the operand count further (1 for
an unknown opcode), without wrapping, and at most MEM_SIZE; when it is not RUNNING (HLT, or a fault) the PC is
unchanged. An ALU opcode advances by 3. (R58) -/
def Obligations.PcAdvance : Prop :=
  ∀ s t : State, s.cfg.Valid → s.runState = .running → instructionStep s = .next t →
    (t.runState = .running →
      t.pc.toNat = s.pc.toNat + 1 +
        (if classify s.cfg (s.mem.read s.pc.toNat) = .unknown then 0 else operandCount (s.mem.read s.pc.toNat)) ∧
      t.pc.toNat ≤ s.cfg.memSize ∧
      (∀ f, classify s.cfg (s.mem.read s.pc.toNat) = .alu f → t.pc.toNat = s.pc.toNat + 3)) ∧
    (t.runState ≠ .running → t.pc = s.pc)

/-- The channels only grow, by at most one event a step. At a step at which the host gives no reset, the output channel
and the report channel after are those before with at most one event appended in all. That nothing is taken out of
them, by the host's reading either, is the model's reading of R21, R22 and R96 (log 17). (R21, R22, R96) -/
def Obligations.ChannelsOnlyGrow : Prop :=
  ∀ s t : State, s.NoReset → step s = .next t →
    ∃ bytes reps, t.out = s.out ++ bytes ∧ t.reports = s.reports ++ reps ∧ bytes.length + reps.length ≤ 1

/-- Only PUSH writes memory, at SP - 1. At a step at which the host gives no reset, from a memory in canonical form, an
address whose byte changes is SP - 1, the block was RUNNING, and the opcode at the PC is PUSH. (R28, R34, R42) -/
def Obligations.OnlyPushWritesMemory : Prop :=
  ∀ (s t : State) (a : Nat), s.mem.wf → s.NoReset → step s = .next t → t.mem.read a ≠ s.mem.read a →
    s.runState = .running ∧ s.pc.toNat < s.cfg.memSize ∧ s.mem.read s.pc.toNat = s.cfg.opcPush ∧
    (a : Int) = pushAddress s

/-- Every way the run state changes. When a step changes the run state, it is one of: RUNNING to HALTED with HLT at the
PC; RUNNING to FAULTED; RUNNING to STOPPED with a stop request pending whose time has come; STOPPED to RUNNING by
the host's resume; or to RUNNING by the host's reset. The first three happen at turns at which the host gives
nothing. (R16, R60, R73, R82, R85, R86) -/
def Obligations.RunStateChanges : Prop :=
  ∀ s t : State, step s = .next t → t.runState ≠ s.runState →
    (s.runState = .running ∧ t.runState = .halted ∧ s.pc.toNat < s.cfg.memSize ∧
      s.mem.read s.pc.toNat = 0x01#8 ∧ (∀ m later, s.inputs ≠ some m :: later)) ∨
    (s.runState = .running ∧ t.runState = .faulted ∧ (∀ m later, s.inputs ≠ some m :: later)) ∨
    (s.runState = .running ∧ t.runState = .stopped ∧ s.stopPending = some 0 ∧
      (∀ m later, s.inputs ≠ some m :: later)) ∨
    (s.runState = .stopped ∧ t.runState = .running ∧ ∃ later, s.inputs = some .resume :: later) ∨
    (t.runState = .running ∧ ∃ image later, s.inputs = some (.reset image) :: later)

/-- HALTED, FAULTED and STOPPED take no instruction step. In HALTED and FAULTED, at a turn at which the host gives
anything but a reset or gives nothing, and in STOPPED at a turn at which it gives a stop request or nothing, the
step changes nothing but the host's turns. That such a step answers the same state, and does not stop the run, is
the model's choice (log 5). (R60, R82, R85, R86) -/
def Obligations.QuietStatesStay : Prop :=
  ∀ (s : State) (turn : Option HostInput) (later : List (Option HostInput)), s.cfg.Valid →
    (s.inputs = turn :: later ∨ s.inputs = [] ∧ turn = none ∧ later = []) →
    ((s.runState = .halted ∨ s.runState = .faulted) ∧ (∀ image, turn ≠ some (.reset image)) ∨
      s.runState = .stopped ∧ (turn = none ∨ ∃ k, turn = some (.stopReq k))) →
    step s = .next { s with inputs := later }

/-- Only a fault and reset write the fault record. When a step changes the fault record, either the block was RUNNING
and is now FAULTED, or the host gave a reset and the record is cleared. (R19) -/
def Obligations.FaultRecordWriters : Prop :=
  ∀ s t : State, step s = .next t → t.fault ≠ s.fault →
    (s.runState = .running ∧ t.runState = .faulted) ∨
    (t.fault = .clear ∧ ∃ image later, s.inputs = some (.reset image) :: later)

/-- A stop changes nothing but when the block pauses. From a RUNNING state with a stop pending after k instruction steps
and a silent host, let u be where k steps lead without the stop. If u is RUNNING, k + 1 steps with the stop lead to
u in STOPPED; otherwise they lead to u but for the pending request. MAR and MDR are left out. The count k is the
model's form of the timing R85 leaves open (log 7); the steps of the model counted in HALTED and FAULTED, where R60
takes no instruction step, answer the same state, which is its choice too (log 5). (R85, R86) -/
def Obligations.StopIsTransparent : Prop :=
  ∀ (k : Nat) (s u : State), s.cfg.Valid → s.runState = .running → s.inputs = [] → s.stopPending = some k →
    Sys2Proof.core.run k { s with stopPending := none } = .next u →
    (u.runState = .running → ∃ v : State, Sys2Proof.core.run (k + 1) s = .next v ∧
      v.erasePort = State.erasePort { u with runState := .stopped }) ∧
    (u.runState ≠ .running → ∃ (v : State) (p : Option Nat), Sys2Proof.core.run (k + 1) s = .next v ∧
      v.erasePort = State.erasePort { u with stopPending := p })

/-- A stop request is pending in RUNNING and does nothing elsewhere. At a turn at which the host asks for a stop: in
RUNNING the request is pending with the host's timing and nothing else changes; in HALTED, FAULTED and STOPPED
nothing changes. The timing as a count (log 7) and that a new request's timing replaces an older one's (log 8) are
the model's choices. (R85) -/
def Obligations.StopRequestMove : Prop :=
  ∀ (s : State) (after : Nat) (later : List (Option HostInput)), s.cfg.Valid →
    s.inputs = some (.stopReq after) :: later →
    (s.runState = .running → step s = .next { s with inputs := later, stopPending := some after }) ∧
    (s.runState ≠ .running → step s = .next { s with inputs := later })

/-- Resume makes STOPPED RUNNING and does nothing elsewhere. At a turn at which the host resumes: in STOPPED the run
state becomes RUNNING and nothing else changes, so the next instruction step fetches at the PC where the stop left
it; in any other run state nothing changes. (R86) -/
def Obligations.ResumeMove : Prop :=
  ∀ (s : State) (later : List (Option HostInput)), s.cfg.Valid → s.inputs = some .resume :: later →
    (s.runState = .stopped → step s = .next { s with inputs := later, runState := .running }) ∧
    (s.runState ≠ .stopped → step s = .next { s with inputs := later })

/-- Reset, from every run state, and the only way out of HALTED and FAULTED. At a turn at which the host resets, in any
run state: R0 to R6 are 0, R7 is 0xF4, the PC is 0, the run state RUNNING, the fault record cleared, MAR and MDR 0,
both channels empty, and memory unchanged. A step that changes the run state from HALTED or FAULTED is a reset. MAR
and MDR stand here because the rule gives their reset values; no other statement reads them. (R90) -/
def Obligations.ResetMove : Prop :=
  (∀ (s : State) (later : List (Option HostInput)), s.cfg.Valid → s.inputs = some (.reset none) :: later →
    ∃ t : State, step s = .next t ∧ (∀ j : RegIdx, t.reg j = if j = 7 then 0xF4#8 else 0) ∧ t.pc = 0 ∧
      t.runState = .running ∧ t.fault = .clear ∧ t.mar = 0 ∧ t.mdr = 0 ∧ t.out = [] ∧ t.reports = [] ∧
      t.mem = s.mem) ∧
  (∀ s t : State, s.runState = .halted ∨ s.runState = .faulted → step s = .next t → t.runState ≠ s.runState →
    ∃ image later, s.inputs = some (.reset image) :: later)

/-- A reset with an image runs from that image. At a turn at which the host resets with an image of MEM_SIZE bytes, in
any run state: R0 to R6 are 0, R7 is 0xF4, the PC is 0, the run state RUNNING, the fault record cleared, both
channels empty, the parameters as they were, and every cell of memory reads as the image; memory is in canonical
form and has no cell at MEM_SIZE or above. After any reset, with an image or without, no stop is pending (the
model's reading of R92, log 9) and the host's turns are those after this one (log 6). That the image comes with the
reset is the model's choice (log 11). (R24, R40, R90, R91, R92) -/
def Obligations.BootWithImage : Prop :=
  (∀ (s : State) (image : List Byte) (later : List (Option HostInput)), s.cfg.Valid →
    s.inputs = some (.reset (some image)) :: later → image.length = s.cfg.memSize →
    ∃ t : State, step s = .next t ∧ (∀ j : RegIdx, t.reg j = if j = 7 then 0xF4#8 else 0) ∧ t.pc = 0 ∧
      t.runState = .running ∧ t.fault = .clear ∧ t.out = [] ∧ t.reports = [] ∧ t.cfg = s.cfg ∧
      (∀ (a : Nat) (h : a < image.length), t.mem.read a = image[a]) ∧
      t.mem.wf ∧ ∀ c ∈ t.mem, c.1 < s.cfg.memSize) ∧
  (∀ (s t : State) (image : Option (List Byte)) (later : List (Option HostInput)),
    s.inputs = some (.reset image) :: later → step s = .next t →
    t.stopPending = none ∧ t.inputs = later ∧ t.cfg = s.cfg)

/-- An image that is not MEM_SIZE bytes stops the model by name. At a turn at which the host resets with an image of any
other length, the step faults by the name badImage. R40 gives such an image no effect; that the model stops is its
choice (log 11). (R40) -/
def Obligations.WrongImageStops : Prop :=
  ∀ (s : State) (image : List Byte) (later : List (Option HostInput)), s.cfg.Valid →
    s.inputs = some (.reset (some image)) :: later → image.length ≠ s.cfg.memSize → step s = .fault .badImage

/-- The state after reset. The reset state of the machine has the values of R24; its all-zero memory (log 3), its silent
host (log 6), its lack of a pending stop (log 7) and its field of parameters (log 1) are the model's choices. (R24) -/
def Obligations.ResetValues : Prop :=
  Sys2Proof.core.reset = ({
    regs := #v[0#8, 0#8, 0#8, 0#8, 0#8, 0#8, 0#8, 0xF4#8], pc := 0#9, runState := .running,
    fault := { code := .none, pc := 0#9, opcodeValid := false, opcode := 0#8, addr := 0#10, index := 0#8 },
    mem := [], mar := 0#9, mdr := 0#8, out := [], reports := [], stopPending := none, inputs := [],
    cfg := Config.hw } : State)

/-- The invariant holds at reset. The reset state meets the invariant: parameters that meet R6, memory in canonical form
with no cell outside MEM_SIZE, the PC at most MEM_SIZE, a fault record that fits the run state. (R17, R19, R24, R26) -/
def Obligations.ResetMeetsInvariant : Prop :=
  State.Inv Sys2Proof.core.reset

/-- Every step keeps the invariant. From every state that meets the invariant, whatever the host gives, if the step
answers a next state it meets the invariant: parameters that meet R6, memory in canonical form with no cell outside
MEM_SIZE, the PC at most MEM_SIZE, and a fault record that is NONE and all 0 exactly when the run state is not
FAULTED and otherwise names the PC, the opcode byte there, an address outside memory or an index of 8 or more. (R6,
R17, R19, R26, R58, R78, R80) -/
def Obligations.StepKeepsInvariant : Prop :=
  ∀ s t : State, s.Inv → Sys2Proof.Machine.step s = .next t → t.Inv

/-- No step changes the parameters. Whatever a step does, the parameters after it are those before. That they stand in
the state is the model's choice (log 1). (R6) -/
def Obligations.ParametersConstant : Prop :=
  ∀ s t : State, step s = .next t → t.cfg = s.cfg

/-- Every run ends within MEM_SIZE + 1 steps. From every state at an instruction (any memory, registers and PC), with a
silent host, MEM_SIZE + 1 steps lead to a next state that is HALTED or FAULTED. The model's steps in those two
states change nothing (log 5). (R58, R62) -/
def Obligations.EveryRunEnds : Prop :=
  ∀ s : State, s.cfg.Valid → s.AtInstruction →
    ∃ t : State, Sys2Proof.core.run (s.cfg.memSize + 1) s = .next t ∧ (t.runState = .halted ∨ t.runState = .faulted)

/-- A PUSH and then a POP restore SP and copy the value. For register numbers r and r' from 0 to 6, when SP is from 1 to
MEM_SIZE - 1 and memory is in canonical form, PUSH r answers a next state, POP r' from it answers a next state, and
then register r' holds what register r held and every other register, SP with them, is as before. (R71, R72) -/
def Obligations.PushThenPop : Prop :=
  ∀ (r r' : Byte) (s : State) (h : r.toNat < 7) (h' : r'.toNat < 7), s.mem.wf →
    1 ≤ s.regs[7].toNat → s.regs[7].toNat < s.cfg.memSize →
    ∃ t u : State, exec (.push r) s = .next t ∧ exec (.pop r') t = .next u ∧
      u.regs = s.regs.set r'.toNat s.regs[r.toNat]

/-- UNSUPPORTED_OPERATION is for a foreign ALU function and never raised. The ALU given a function select that is
neither MUL nor ADD, with both indices register numbers, raises UNSUPPORTED_OPERATION and has no other effect; MUL
and ADD select MUL and ADD; and no step from a state whose record does not hold that code answers a next state whose
record does. That the ALU can be given such a select at all is the model's choice (log 13): R65 says that none can
be named. (R63, R65, R78) -/
def Obligations.UnsupportedNeverRaised : Prop :=
  (∀ (a b : Byte) (s : State), a.toNat < 8 → b.toNat < 8 → aluApply .other a b s = .raised .unsupported s) ∧
  FaultCause.unsupported.code = .unsupportedOperation ∧
  (∀ (a b : Byte) (s : State),
    exec (.mul a b) s = finish s.cfg.opcMul 2 (aluApply (.function .mul) a b s) ∧
    exec (.add a b) s = finish s.cfg.opcAdd 2 (aluApply (.function .add) a b s)) ∧
  (∀ s t : State, s.fault.code ≠ .unsupportedOperation → step s = .next t → t.fault.code ≠ .unsupportedOperation)

/-- What the host reads out. The debug channel shows nothing in RUNNING, and in every other run state the registers, the
PC and the byte of every cell; the state channel shows 0, 1, 2, 3 for RUNNING, HALTED, FAULTED, STOPPED; the output,
report and fault channels show what the state holds. (R16, R25, R96) -/
def Obligations.HostReads : Prop :=
  ∀ s : State,
    (s.runState = .running → debugRead s = none ∧ readState s = 0#2) ∧
    (s.runState ≠ .running → ∃ v, debugRead s = some v ∧ v.regs = s.regs ∧ v.pc = s.pc ∧
      v.memory.length = s.cfg.memSize ∧ ∀ a, a < s.cfg.memSize → v.memory[a]? = some (s.mem.read a)) ∧
    (s.runState = .halted → readState s = 1#2) ∧ (s.runState = .faulted → readState s = 2#2) ∧
    (s.runState = .stopped → readState s = 3#2) ∧
    readOut s = s.out ∧ readReports s = s.reports ∧ readFault s = s.fault

/-- Every instruction completes under the conditions the rules give. HLT always, LDI, PRN, MUL and ADD whenever their
register operands are 0 to 7, PUSH when also SP - 1 lies in memory, and POP when also SP and the new SP lie in
memory, answer a next state that is no fault: the fault record and the host's turns are unchanged; HLT makes HALTED
and keeps the PC, every other instruction keeps the run state and advances the PC by its length; LDI leaves its
literal in its register, PRN appends its register to the output channel and keeps every register, and only PUSH
changes memory. (R58, R66, R67, R69, R70, R71, R72, R73) -/
def Obligations.InstructionsComplete : Prop :=
  ∀ (i : Instr) (s : State), RegisterForm i = true →
    (∀ r, i = .push r → 1 ≤ s.regs[7].toNat ∧ s.regs[7].toNat - 1 < s.cfg.memSize) →
    (∀ r, i = .pop r → s.regs[7].toNat < s.cfg.memSize ∧
      (if r.toNat = 7 then s.mem.read s.regs[7].toNat else s.regs[7]).toNat + 1 < s.cfg.memSize) →
    ∃ t : State, exec i s = .next t ∧ t.fault = s.fault ∧ t.inputs = s.inputs ∧
      t.runState = (if i = .hlt then .halted else s.runState) ∧
      t.pc = (if i = .hlt then s.pc else s.pc + BitVec.ofNat 9 i.length) ∧
      (∀ r imm, i = .ldi r imm → ∀ h : r.toNat < 8, t.regs[r.toNat] = imm) ∧
      (∀ r, i = .prn r → ∀ h : r.toNat < 8, t.out = s.out ++ [s.regs[r.toNat]] ∧ t.regs = s.regs) ∧
      ((∀ r, i ≠ .push r) → t.mem = s.mem)
end

