-- ==== Sys2Proof/Laws/Decode.lean ====
section
/-! SUPPORT. The dispatcher: which opcode byte each class comes from. -/

namespace Sys2Proof

/-- The class of a byte, and the opcode it then is. -/
theorem classify_cases (c : Config) (op : Byte) :
    (classify c op = .halt ∧ op = opcHlt) ∨ (classify c op = .control .ldi ∧ op = opcLdi) ∨
    (classify c op = .control .prn ∧ op = opcPrn) ∨ (classify c op = .control .push ∧ op = c.opcPush) ∨
    (classify c op = .control .pop ∧ op = c.opcPop) ∨ (classify c op = .alu .mul ∧ op = c.opcMul) ∨
    (classify c op = .alu .add ∧ op = c.opcAdd ∧ c.addWired = true) ∨ classify c op = .unknown := by
  unfold classify
  repeat' split
  all_goals simp_all

/-- With parameters that meet R6, the operand count of an opcode is the number of operand bytes of its format. -/
theorem operandCount_opcodes {c : Config} (h : c.Valid) :
    operandCount opcHlt = 0 ∧ operandCount opcLdi = 2 ∧ operandCount opcPrn = 1 ∧ operandCount c.opcPush = 1 ∧
      operandCount c.opcPop = 1 ∧ operandCount c.opcMul = 2 ∧ operandCount c.opcAdd = 2 := by
  obtain ⟨-, h1, h2, h3, h4, -⟩ := h
  refine ⟨by decide, by decide, by decide, ?_, ?_, ?_, ?_⟩ <;> simp [operandCount, *]

/-- The dispatcher gives no class for bytes an instruction needs but has not: a list of exactly the operand count
decodes. -/
theorem decode_of_count {c : Config} (h : c.Valid) {op : Byte} (hop : classify c op ≠ .unknown) {bs : List Byte}
    (hlen : bs.length = operandCount op) :
    ∃ i, decode c (op :: bs) = .instr i [] ∧ opcodeOf c i = op ∧ operandsOf i = bs := by
  obtain ⟨n1, n2, n3, n4, n5, n6, n7⟩ := operandCount_opcodes h
  rcases classify_cases c op with ⟨e, rfl⟩ | ⟨e, rfl⟩ | ⟨e, rfl⟩ | ⟨e, rfl⟩ | ⟨e, rfl⟩ | ⟨e, rfl⟩ | ⟨e, rfl, -⟩ | e
  · rw [n1] at hlen
    obtain rfl := List.length_eq_zero_iff.1 hlen
    exact ⟨.hlt, by simp [decode, e, assemble], rfl, rfl⟩
  · rw [n2] at hlen
    obtain ⟨r, v, rfl⟩ := List.length_eq_two.1 hlen
    exact ⟨.ldi r v, by simp [decode, e, assemble], rfl, rfl⟩
  · rw [n3] at hlen
    obtain ⟨r, rfl⟩ := List.length_eq_one_iff.1 hlen
    exact ⟨.prn r, by simp [decode, e, assemble], rfl, rfl⟩
  · rw [n4] at hlen
    obtain ⟨r, rfl⟩ := List.length_eq_one_iff.1 hlen
    exact ⟨.push r, by simp [decode, e, assemble], rfl, rfl⟩
  · rw [n5] at hlen
    obtain ⟨r, rfl⟩ := List.length_eq_one_iff.1 hlen
    exact ⟨.pop r, by simp [decode, e, assemble], rfl, rfl⟩
  · rw [n6] at hlen
    obtain ⟨a, b, rfl⟩ := List.length_eq_two.1 hlen
    exact ⟨.mul a b, by simp [decode, e, assemble], rfl, rfl⟩
  · rw [n7] at hlen
    obtain ⟨a, b, rfl⟩ := List.length_eq_two.1 hlen
    exact ⟨.add a b, by simp [decode, e, assemble], rfl, rfl⟩
  · exact absurd e hop

end Sys2Proof
end

