-- ==== Sys2Proof/Laws/Memory.lean ====
section
/-! SUPPORT. Memory: a read after a write, the canonical form, and the cells it lists. -/

namespace Sys2Proof.Machine

/-- In canonical form the tail is in canonical form, and its addresses lie above the head's. -/
theorem Memory.wf_cons {k : Nat} {w : Byte} {m : Memory} :
    Memory.wf ((k, w) :: m) ↔ (∀ c ∈ m, k < c.1) ∧ w ≠ Memory.unlisted ∧ Memory.wf m := by
  simp only [Memory.wf, List.pairwise_cons, List.forall_mem_cons]
  constructor
  · rintro ⟨⟨h1, h2⟩, h3, h4⟩; exact ⟨h1, h3, h2, h4⟩
  · rintro ⟨h1, h3, h2, h4⟩; exact ⟨⟨h1, h2⟩, h3, h4⟩

theorem Memory.nil_wf : Memory.wf [] := ⟨List.Pairwise.nil, fun _ h => absurd h List.not_mem_nil⟩

/-- An address below every listed one reads as an unlisted address. -/
theorem Memory.read_below {m : Memory} {a : Nat} (h : ∀ c ∈ m, a < c.1) : m.read a = Memory.unlisted := by
  cases m with
  | nil => rfl
  | cons c m =>
    have hc : a < c.1 := h c List.mem_cons_self
    simp [Memory.read, hc, Nat.ne_of_lt hc]

/-- The cells after a write: the one written, or one that was there at another address. -/
theorem Memory.mem_write {m : Memory} {a : Nat} {v : Byte} {c : Host.Cell} (h : c ∈ m.write a v) :
    c = (a, v) ∧ v ≠ Memory.unlisted ∨ c ∈ m := by
  induction m with
  | nil => simp only [Memory.write] at h; split at h <;> simp_all
  | cons d m ih =>
    simp only [Memory.write] at h
    split at h
    · (split at h <;> simp_all); tauto
    · split at h
      · split at h <;> simp_all
      · rcases List.mem_cons.1 h with h | h
        · exact .inr (by simp [h])
        · rcases ih h with h | h
          · exact .inl h
          · exact .inr (List.mem_cons_of_mem _ h)

/-- A write keeps the canonical form. -/
theorem Memory.write_wf {m : Memory} (h : m.wf) (a : Nat) (v : Byte) : (m.write a v).wf := by
  induction m with
  | nil =>
    simp only [Memory.write]
    split
    · exact Memory.nil_wf
    · exact Memory.wf_cons.2 ⟨fun _ h => absurd h List.not_mem_nil, ‹_›, Memory.nil_wf⟩
  | cons d m ih =>
    obtain ⟨k, w⟩ := d
    obtain ⟨hk, hw, hm⟩ := Memory.wf_cons.1 h
    simp only [Memory.write]
    split
    next ha =>
      split
      · exact hm
      · exact Memory.wf_cons.2 ⟨ha ▸ hk, ‹_›, hm⟩
    next ha =>
      split
      next hlt =>
        split
        · exact h
        · refine Memory.wf_cons.2 ⟨fun c hc => ?_, ‹_›, h⟩
          rcases List.mem_cons.1 hc with rfl | hc
          · exact hlt
          · exact Nat.lt_trans hlt (hk c hc)
      next hge =>
        refine Memory.wf_cons.2 ⟨fun c hc => ?_, hw, ih hm⟩
        rcases Memory.mem_write hc with ⟨rfl, -⟩ | hc
        · simp only at *; omega
        · exact hk c hc

/-- A write below a bound keeps every cell below it. -/
theorem Memory.write_cells {m : Memory} {n a : Nat} (h : ∀ c ∈ m, c.1 < n) (ha : a < n) (v : Byte) :
    ∀ c ∈ m.write a v, c.1 < n := by
  intro c hc
  rcases Memory.mem_write hc with ⟨rfl, -⟩ | hc
  · exact ha
  · exact h c hc

/-- A read after a write: the byte written at its address, and the byte before everywhere else (R37). -/
theorem Memory.read_write {m : Memory} (h : m.wf) (a b : Nat) (v : Byte) :
    (m.write a v).read b = if b = a then v else m.read b := by
  induction m with
  | nil => by_cases hv : v = Memory.unlisted <;> by_cases hb : b = a <;> simp [Memory.write, Memory.read, hv, hb]
  | cons d m ih =>
    obtain ⟨k, w⟩ := d
    obtain ⟨hk, hw, hm⟩ := Memory.wf_cons.1 h
    have below : ∀ x, x ≤ k → Memory.read m x = Memory.unlisted := fun x hx =>
      Memory.read_below fun c hc => Nat.lt_of_le_of_lt hx (hk c hc)
    rcases Nat.lt_trichotomy a k with hak | rfl | hka
    · have hne : a ≠ k := Nat.ne_of_lt hak
      by_cases hv : v = Memory.unlisted
      · by_cases hb : b = a
        · simp [Memory.write, Memory.read, hv, hb, hne, hak]
        · simp [Memory.write, hv, hb, hne, hak]
      · by_cases hb : b = a
        · simp [Memory.write, Memory.read, hv, hb, hne, hak]
        · by_cases hlt : b < a
          · simp [Memory.write, Memory.read, hv, hb, hne, hak, hlt, Nat.ne_of_lt (Nat.lt_trans hlt hak), Nat.lt_trans hlt hak]
          · simp [Memory.write, Memory.read, hv, hb, hne, hak, hlt]
    · by_cases hv : v = Memory.unlisted
      · by_cases hb : b = a
        · simp [Memory.write, hv, hb, below a (Nat.le_refl a)]
        · by_cases hlt : b < a
          · simp [Memory.write, Memory.read, hv, hb, hlt, below b (Nat.le_of_lt hlt)]
          · simp [Memory.write, Memory.read, hv, hb, hlt]
      · by_cases hb : b = a <;> simp [Memory.write, Memory.read, hv, hb]
    · have hne : a ≠ k := (Nat.ne_of_lt hka).symm
      have hnlt : ¬ a < k := Nat.not_lt_of_lt hka
      by_cases hbk : b = k
      · simp [Memory.write, Memory.read, hne, hnlt, hbk, Nat.ne_of_lt hka]
      · by_cases hlt : b < k
        · simp [Memory.write, Memory.read, hne, hnlt, hbk, hlt, Nat.ne_of_lt (Nat.lt_trans hlt hka)]
        · simp [Memory.write, Memory.read, hne, hnlt, hbk, hlt, ih hm]

/-- The cells an image lists lie from its first address up to its length above. -/
theorem Memory.mem_ofBytes {a : Nat} {bs : List Byte} {c : Host.Cell} (h : c ∈ Memory.ofBytes a bs) :
    a ≤ c.1 ∧ c.1 < a + bs.length := by
  induction bs generalizing a with
  | nil => simp [Memory.ofBytes] at h
  | cons b bs ih =>
    simp only [Memory.ofBytes] at h
    simp only [List.length_cons]
    split at h
    · have := ih h; omega
    · rcases List.mem_cons.1 h with rfl | h
      · simp
      · have := ih h; omega

/-- The memory of an image is in canonical form. -/
theorem Memory.ofBytes_wf (a : Nat) (bs : List Byte) : (Memory.ofBytes a bs).wf := by
  induction bs generalizing a with
  | nil => exact Memory.nil_wf
  | cons b bs ih =>
    simp only [Memory.ofBytes]
    split
    · exact ih (a + 1)
    · exact Memory.wf_cons.2 ⟨fun c hc => (Memory.mem_ofBytes hc).1, ‹_›, ih (a + 1)⟩

/-- The memory of an image reads as the image. -/
theorem Memory.read_ofBytes (a n : Nat) (bs : List Byte) (h : n < bs.length) :
    (Memory.ofBytes a bs).read (a + n) = bs[n] := by
  induction bs generalizing a n with
  | nil => simp at h
  | cons b bs ih =>
    have below : (Memory.ofBytes (a + 1) bs).read a = Memory.unlisted :=
      Memory.read_below fun c hc => (Memory.mem_ofBytes hc).1
    cases n with
    | zero =>
      simp only [Memory.ofBytes, Nat.add_zero, List.getElem_cons_zero]
      split
      · rw [below]; exact Eq.symm ‹_›
      · simp [Memory.read]
    | succ n =>
      have hn : n < bs.length := by simpa using h
      have e : a + (n + 1) = a + 1 + n := by omega
      simp only [Memory.ofBytes, List.getElem_cons_succ]
      split
      · rw [e]; exact ih (a + 1) n hn
      · have h1 : ¬ a + (n + 1) = a := by omega
        have h2 : ¬ a + (n + 1) < a := by omega
        simp only [Memory.read, h1, h2, if_false]
        rw [e]; exact ih (a + 1) n hn

/-- Laying bytes out keeps the canonical form. -/
theorem Memory.writeBytes_wf {m : Memory} (h : m.wf) (limit a : Nat) (bs : List Byte) :
    (Memory.writeBytes limit m a bs).wf := by
  induction bs generalizing m a with
  | nil => exact h
  | cons b bs ih =>
    simp only [Memory.writeBytes]
    split
    · exact ih (Memory.write_wf h a b) (a + 1)
    · exact ih h (a + 1)

/-- Equal memories are equal data: two canonical memories that read the same at every address are the same list. -/
theorem Memory.eq_of_read {m n : Memory} (hm : m.wf) (hn : n.wf) (h : ∀ a, m.read a = n.read a) : m = n := by
  induction m generalizing n with
  | nil =>
    cases n with
    | nil => rfl
    | cons d n =>
      have := h d.1
      simp [Memory.read] at this
      exact absurd this.symm (hn.2 d List.mem_cons_self)
  | cons c m ih =>
    obtain ⟨k, w⟩ := c
    obtain ⟨hk, hw, hm'⟩ := Memory.wf_cons.1 hm
    cases n with
    | nil =>
      have := h k
      simp [Memory.read] at this
      exact absurd this hw
    | cons d n =>
      obtain ⟨k', w'⟩ := d
      obtain ⟨hk', hw', hn'⟩ := Memory.wf_cons.1 hn
      have hkk : k = k' := by
        rcases Nat.lt_trichotomy k k' with hlt | heq | hlt
        · have := h k
          simp [Memory.read, hlt, Nat.ne_of_lt hlt] at this
          exact absurd this hw
        · exact heq
        · have := h k'
          simp [Memory.read, hlt, Nat.ne_of_lt hlt] at this
          exact absurd this.symm hw'
      subst hkk
      have hww : w = w' := by simpa [Memory.read] using h k
      subst hww
      congr 1
      refine ih hm' hn' fun a => ?_
      rcases Nat.lt_or_ge k a with hlt | hge
      · simpa [Memory.read, Nat.ne_of_gt hlt, Nat.not_lt_of_lt hlt] using h a
      · rw [Memory.read_below fun c hc => Nat.lt_of_le_of_lt hge (hk c hc),
          Memory.read_below fun c hc => Nat.lt_of_le_of_lt hge (hk' c hc)]

/-- Memory at reset is in canonical form. -/
theorem State.reset_mem_wf : State.reset.mem.wf := Memory.nil_wf

end Sys2Proof.Machine
end

