-- ==== Sys2Proof/Laws/State.lean ====
section
/-! SUPPORT. One lemma per field per update of the state, so that no later proof unfolds a record update. -/

namespace Sys2Proof.Machine

variable (s : State)

/-! ### setReg -/

@[simp] theorem State.setReg_regs (i : RegIdx) (v : Byte) : (s.setReg i v).regs = s.regs.set i.val v i.isLt := rfl
@[simp] theorem State.setReg_pc (i : RegIdx) (v : Byte) : (s.setReg i v).pc = s.pc := rfl
@[simp] theorem State.setReg_runState (i : RegIdx) (v : Byte) : (s.setReg i v).runState = s.runState := rfl
@[simp] theorem State.setReg_fault (i : RegIdx) (v : Byte) : (s.setReg i v).fault = s.fault := rfl
@[simp] theorem State.setReg_mem (i : RegIdx) (v : Byte) : (s.setReg i v).mem = s.mem := rfl
@[simp] theorem State.setReg_mar (i : RegIdx) (v : Byte) : (s.setReg i v).mar = s.mar := rfl
@[simp] theorem State.setReg_mdr (i : RegIdx) (v : Byte) : (s.setReg i v).mdr = s.mdr := rfl
@[simp] theorem State.setReg_out (i : RegIdx) (v : Byte) : (s.setReg i v).out = s.out := rfl
@[simp] theorem State.setReg_reports (i : RegIdx) (v : Byte) : (s.setReg i v).reports = s.reports := rfl
@[simp] theorem State.setReg_stopPending (i : RegIdx) (v : Byte) : (s.setReg i v).stopPending = s.stopPending := rfl
@[simp] theorem State.setReg_inputs (i : RegIdx) (v : Byte) : (s.setReg i v).inputs = s.inputs := rfl
@[simp] theorem State.setReg_cfg (i : RegIdx) (v : Byte) : (s.setReg i v).cfg = s.cfg := rfl

/-! ### advance -/

@[simp] theorem State.advance_regs (n : Nat) : (s.advance n).regs = s.regs := rfl
@[simp] theorem State.advance_pc (n : Nat) : (s.advance n).pc = s.pc + BitVec.ofNat 9 n := rfl
@[simp] theorem State.advance_runState (n : Nat) : (s.advance n).runState = s.runState := rfl
@[simp] theorem State.advance_fault (n : Nat) : (s.advance n).fault = s.fault := rfl
@[simp] theorem State.advance_mem (n : Nat) : (s.advance n).mem = s.mem := rfl
@[simp] theorem State.advance_mar (n : Nat) : (s.advance n).mar = s.mar := rfl
@[simp] theorem State.advance_mdr (n : Nat) : (s.advance n).mdr = s.mdr := rfl
@[simp] theorem State.advance_out (n : Nat) : (s.advance n).out = s.out := rfl
@[simp] theorem State.advance_reports (n : Nat) : (s.advance n).reports = s.reports := rfl
@[simp] theorem State.advance_stopPending (n : Nat) : (s.advance n).stopPending = s.stopPending := rfl
@[simp] theorem State.advance_inputs (n : Nat) : (s.advance n).inputs = s.inputs := rfl
@[simp] theorem State.advance_cfg (n : Nat) : (s.advance n).cfg = s.cfg := rfl

/-! ### touch -/

@[simp] theorem State.touch_regs (a : Nat) (v : Byte) : (s.touch a v).regs = s.regs := rfl
@[simp] theorem State.touch_pc (a : Nat) (v : Byte) : (s.touch a v).pc = s.pc := rfl
@[simp] theorem State.touch_runState (a : Nat) (v : Byte) : (s.touch a v).runState = s.runState := rfl
@[simp] theorem State.touch_fault (a : Nat) (v : Byte) : (s.touch a v).fault = s.fault := rfl
@[simp] theorem State.touch_mem (a : Nat) (v : Byte) : (s.touch a v).mem = s.mem := rfl
@[simp] theorem State.touch_mar (a : Nat) (v : Byte) : (s.touch a v).mar = BitVec.ofNat 9 a := rfl
@[simp] theorem State.touch_mdr (a : Nat) (v : Byte) : (s.touch a v).mdr = v := rfl
@[simp] theorem State.touch_out (a : Nat) (v : Byte) : (s.touch a v).out = s.out := rfl
@[simp] theorem State.touch_reports (a : Nat) (v : Byte) : (s.touch a v).reports = s.reports := rfl
@[simp] theorem State.touch_stopPending (a : Nat) (v : Byte) : (s.touch a v).stopPending = s.stopPending := rfl
@[simp] theorem State.touch_inputs (a : Nat) (v : Byte) : (s.touch a v).inputs = s.inputs := rfl
@[simp] theorem State.touch_cfg (a : Nat) (v : Byte) : (s.touch a v).cfg = s.cfg := rfl

/-! ### afterRead -/

@[simp] theorem State.afterRead_regs (a : Nat) : (s.afterRead a).regs = s.regs := rfl
@[simp] theorem State.afterRead_pc (a : Nat) : (s.afterRead a).pc = s.pc := rfl
@[simp] theorem State.afterRead_runState (a : Nat) : (s.afterRead a).runState = s.runState := rfl
@[simp] theorem State.afterRead_fault (a : Nat) : (s.afterRead a).fault = s.fault := rfl
@[simp] theorem State.afterRead_mem (a : Nat) : (s.afterRead a).mem = s.mem := rfl
@[simp] theorem State.afterRead_mar (a : Nat) : (s.afterRead a).mar = BitVec.ofNat 9 a := rfl
@[simp] theorem State.afterRead_mdr (a : Nat) : (s.afterRead a).mdr = s.load a := rfl
@[simp] theorem State.afterRead_out (a : Nat) : (s.afterRead a).out = s.out := rfl
@[simp] theorem State.afterRead_reports (a : Nat) : (s.afterRead a).reports = s.reports := rfl
@[simp] theorem State.afterRead_stopPending (a : Nat) : (s.afterRead a).stopPending = s.stopPending := rfl
@[simp] theorem State.afterRead_inputs (a : Nat) : (s.afterRead a).inputs = s.inputs := rfl
@[simp] theorem State.afterRead_cfg (a : Nat) : (s.afterRead a).cfg = s.cfg := rfl

/-! ### store -/

@[simp] theorem State.store_regs (a : Nat) (v : Byte) : (s.store a v).regs = s.regs := rfl
@[simp] theorem State.store_pc (a : Nat) (v : Byte) : (s.store a v).pc = s.pc := rfl
@[simp] theorem State.store_runState (a : Nat) (v : Byte) : (s.store a v).runState = s.runState := rfl
@[simp] theorem State.store_fault (a : Nat) (v : Byte) : (s.store a v).fault = s.fault := rfl
@[simp] theorem State.store_mem (a : Nat) (v : Byte) : (s.store a v).mem = s.mem.write a v := rfl
@[simp] theorem State.store_mar (a : Nat) (v : Byte) : (s.store a v).mar = BitVec.ofNat 9 a := rfl
@[simp] theorem State.store_mdr (a : Nat) (v : Byte) : (s.store a v).mdr = v := rfl
@[simp] theorem State.store_out (a : Nat) (v : Byte) : (s.store a v).out = s.out := rfl
@[simp] theorem State.store_reports (a : Nat) (v : Byte) : (s.store a v).reports = s.reports := rfl
@[simp] theorem State.store_stopPending (a : Nat) (v : Byte) : (s.store a v).stopPending = s.stopPending := rfl
@[simp] theorem State.store_inputs (a : Nat) (v : Byte) : (s.store a v).inputs = s.inputs := rfl
@[simp] theorem State.store_cfg (a : Nat) (v : Byte) : (s.store a v).cfg = s.cfg := rfl

/-! ### emit -/

@[simp] theorem State.emit_regs (v : Byte) : (s.emit v).regs = s.regs := rfl
@[simp] theorem State.emit_pc (v : Byte) : (s.emit v).pc = s.pc := rfl
@[simp] theorem State.emit_runState (v : Byte) : (s.emit v).runState = s.runState := rfl
@[simp] theorem State.emit_fault (v : Byte) : (s.emit v).fault = s.fault := rfl
@[simp] theorem State.emit_mem (v : Byte) : (s.emit v).mem = s.mem := rfl
@[simp] theorem State.emit_mar (v : Byte) : (s.emit v).mar = s.mar := rfl
@[simp] theorem State.emit_mdr (v : Byte) : (s.emit v).mdr = s.mdr := rfl
@[simp] theorem State.emit_out (v : Byte) : (s.emit v).out = s.out ++ [v] := rfl
@[simp] theorem State.emit_reports (v : Byte) : (s.emit v).reports = s.reports := rfl
@[simp] theorem State.emit_stopPending (v : Byte) : (s.emit v).stopPending = s.stopPending := rfl
@[simp] theorem State.emit_inputs (v : Byte) : (s.emit v).inputs = s.inputs := rfl
@[simp] theorem State.emit_cfg (v : Byte) : (s.emit v).cfg = s.cfg := rfl

/-! ### addReport -/

@[simp] theorem State.addReport_regs (op : Byte) : (s.addReport op).regs = s.regs := rfl
@[simp] theorem State.addReport_pc (op : Byte) : (s.addReport op).pc = s.pc := rfl
@[simp] theorem State.addReport_runState (op : Byte) : (s.addReport op).runState = s.runState := rfl
@[simp] theorem State.addReport_fault (op : Byte) : (s.addReport op).fault = s.fault := rfl
@[simp] theorem State.addReport_mem (op : Byte) : (s.addReport op).mem = s.mem := rfl
@[simp] theorem State.addReport_mar (op : Byte) : (s.addReport op).mar = s.mar := rfl
@[simp] theorem State.addReport_mdr (op : Byte) : (s.addReport op).mdr = s.mdr := rfl
@[simp] theorem State.addReport_out (op : Byte) : (s.addReport op).out = s.out := rfl
@[simp] theorem State.addReport_reports (op : Byte) : (s.addReport op).reports = s.reports ++ [{ pc := s.pc, opcode := op }] := rfl
@[simp] theorem State.addReport_stopPending (op : Byte) : (s.addReport op).stopPending = s.stopPending := rfl
@[simp] theorem State.addReport_inputs (op : Byte) : (s.addReport op).inputs = s.inputs := rfl
@[simp] theorem State.addReport_cfg (op : Byte) : (s.addReport op).cfg = s.cfg := rfl

/-! ### setRun -/

@[simp] theorem State.setRun_regs (r : RunState) : (s.setRun r).regs = s.regs := rfl
@[simp] theorem State.setRun_pc (r : RunState) : (s.setRun r).pc = s.pc := rfl
@[simp] theorem State.setRun_runState (r : RunState) : (s.setRun r).runState = r := rfl
@[simp] theorem State.setRun_fault (r : RunState) : (s.setRun r).fault = s.fault := rfl
@[simp] theorem State.setRun_mem (r : RunState) : (s.setRun r).mem = s.mem := rfl
@[simp] theorem State.setRun_mar (r : RunState) : (s.setRun r).mar = s.mar := rfl
@[simp] theorem State.setRun_mdr (r : RunState) : (s.setRun r).mdr = s.mdr := rfl
@[simp] theorem State.setRun_out (r : RunState) : (s.setRun r).out = s.out := rfl
@[simp] theorem State.setRun_reports (r : RunState) : (s.setRun r).reports = s.reports := rfl
@[simp] theorem State.setRun_stopPending (r : RunState) : (s.setRun r).stopPending = s.stopPending := rfl
@[simp] theorem State.setRun_inputs (r : RunState) : (s.setRun r).inputs = s.inputs := rfl
@[simp] theorem State.setRun_cfg (r : RunState) : (s.setRun r).cfg = s.cfg := rfl

/-! ### raise -/

@[simp] theorem State.raise_regs (c : FaultCause) (op : Option Byte) : (s.raise c op).regs = s.regs := rfl
@[simp] theorem State.raise_pc (c : FaultCause) (op : Option Byte) : (s.raise c op).pc = s.pc := rfl
@[simp] theorem State.raise_runState (c : FaultCause) (op : Option Byte) : (s.raise c op).runState = .faulted := rfl
@[simp] theorem State.raise_fault (c : FaultCause) (op : Option Byte) : (s.raise c op).fault = faultRecord c s.pc op := rfl
@[simp] theorem State.raise_mem (c : FaultCause) (op : Option Byte) : (s.raise c op).mem = s.mem := rfl
@[simp] theorem State.raise_mar (c : FaultCause) (op : Option Byte) : (s.raise c op).mar = s.mar := rfl
@[simp] theorem State.raise_mdr (c : FaultCause) (op : Option Byte) : (s.raise c op).mdr = s.mdr := rfl
@[simp] theorem State.raise_out (c : FaultCause) (op : Option Byte) : (s.raise c op).out = s.out := rfl
@[simp] theorem State.raise_reports (c : FaultCause) (op : Option Byte) : (s.raise c op).reports = s.reports := rfl
@[simp] theorem State.raise_stopPending (c : FaultCause) (op : Option Byte) : (s.raise c op).stopPending = s.stopPending := rfl
@[simp] theorem State.raise_inputs (c : FaultCause) (op : Option Byte) : (s.raise c op).inputs = s.inputs := rfl
@[simp] theorem State.raise_cfg (c : FaultCause) (op : Option Byte) : (s.raise c op).cfg = s.cfg := rfl

/-! ### skipUnknown -/

@[simp] theorem State.skipUnknown_regs (op : Byte) : (s.skipUnknown op).regs = s.regs := rfl
@[simp] theorem State.skipUnknown_pc (op : Byte) : (s.skipUnknown op).pc = s.pc + BitVec.ofNat 9 1 := rfl
@[simp] theorem State.skipUnknown_runState (op : Byte) : (s.skipUnknown op).runState = s.runState := rfl
@[simp] theorem State.skipUnknown_fault (op : Byte) : (s.skipUnknown op).fault = s.fault := rfl
@[simp] theorem State.skipUnknown_mem (op : Byte) : (s.skipUnknown op).mem = s.mem := rfl
@[simp] theorem State.skipUnknown_mar (op : Byte) : (s.skipUnknown op).mar = s.mar := rfl
@[simp] theorem State.skipUnknown_mdr (op : Byte) : (s.skipUnknown op).mdr = s.mdr := rfl
@[simp] theorem State.skipUnknown_out (op : Byte) : (s.skipUnknown op).out = s.out := rfl
@[simp] theorem State.skipUnknown_reports (op : Byte) : (s.skipUnknown op).reports = s.reports ++ [{ pc := s.pc, opcode := op }] := rfl
@[simp] theorem State.skipUnknown_stopPending (op : Byte) : (s.skipUnknown op).stopPending = s.stopPending := rfl
@[simp] theorem State.skipUnknown_inputs (op : Byte) : (s.skipUnknown op).inputs = s.inputs := rfl
@[simp] theorem State.skipUnknown_cfg (op : Byte) : (s.skipUnknown op).cfg = s.cfg := rfl

/-! ### takeStop -/

@[simp] theorem State.takeStop_regs : (s.takeStop).regs = s.regs := rfl
@[simp] theorem State.takeStop_pc : (s.takeStop).pc = s.pc := rfl
@[simp] theorem State.takeStop_runState : (s.takeStop).runState = .stopped := rfl
@[simp] theorem State.takeStop_fault : (s.takeStop).fault = s.fault := rfl
@[simp] theorem State.takeStop_mem : (s.takeStop).mem = s.mem := rfl
@[simp] theorem State.takeStop_mar : (s.takeStop).mar = s.mar := rfl
@[simp] theorem State.takeStop_mdr : (s.takeStop).mdr = s.mdr := rfl
@[simp] theorem State.takeStop_out : (s.takeStop).out = s.out := rfl
@[simp] theorem State.takeStop_reports : (s.takeStop).reports = s.reports := rfl
@[simp] theorem State.takeStop_stopPending : (s.takeStop).stopPending = none := rfl
@[simp] theorem State.takeStop_inputs : (s.takeStop).inputs = s.inputs := rfl
@[simp] theorem State.takeStop_cfg : (s.takeStop).cfg = s.cfg := rfl

/-! ### applyReset -/

@[simp] theorem State.applyReset_regs : (s.applyReset).regs = #v[0, 0, 0, 0, 0, 0, 0, spReset] := rfl
@[simp] theorem State.applyReset_pc : (s.applyReset).pc = 0 := rfl
@[simp] theorem State.applyReset_runState : (s.applyReset).runState = .running := rfl
@[simp] theorem State.applyReset_fault : (s.applyReset).fault = .clear := rfl
@[simp] theorem State.applyReset_mem : (s.applyReset).mem = s.mem := rfl
@[simp] theorem State.applyReset_mar : (s.applyReset).mar = 0 := rfl
@[simp] theorem State.applyReset_mdr : (s.applyReset).mdr = 0 := rfl
@[simp] theorem State.applyReset_out : (s.applyReset).out = [] := rfl
@[simp] theorem State.applyReset_reports : (s.applyReset).reports = [] := rfl
@[simp] theorem State.applyReset_stopPending : (s.applyReset).stopPending = none := rfl
@[simp] theorem State.applyReset_inputs : (s.applyReset).inputs = s.inputs := rfl
@[simp] theorem State.applyReset_cfg : (s.applyReset).cfg = s.cfg := rfl

/-! ### erasePort -/

@[simp] theorem State.erasePort_regs : (s.erasePort).regs = s.regs := rfl
@[simp] theorem State.erasePort_pc : (s.erasePort).pc = s.pc := rfl
@[simp] theorem State.erasePort_runState : (s.erasePort).runState = s.runState := rfl
@[simp] theorem State.erasePort_fault : (s.erasePort).fault = s.fault := rfl
@[simp] theorem State.erasePort_mem : (s.erasePort).mem = s.mem := rfl
@[simp] theorem State.erasePort_mar : (s.erasePort).mar = 0 := rfl
@[simp] theorem State.erasePort_mdr : (s.erasePort).mdr = 0 := rfl
@[simp] theorem State.erasePort_out : (s.erasePort).out = s.out := rfl
@[simp] theorem State.erasePort_reports : (s.erasePort).reports = s.reports := rfl
@[simp] theorem State.erasePort_stopPending : (s.erasePort).stopPending = s.stopPending := rfl
@[simp] theorem State.erasePort_inputs : (s.erasePort).inputs = s.inputs := rfl
@[simp] theorem State.erasePort_cfg : (s.erasePort).cfg = s.cfg := rfl

/-! ### requestStop and resume, which look at the run state -/

@[simp] theorem State.requestStop_regs (k : Nat) : (s.requestStop k).regs = s.regs := by unfold State.requestStop; split <;> rfl
@[simp] theorem State.requestStop_pc (k : Nat) : (s.requestStop k).pc = s.pc := by unfold State.requestStop; split <;> rfl
@[simp] theorem State.requestStop_runState (k : Nat) : (s.requestStop k).runState = s.runState := by unfold State.requestStop; split <;> rfl
@[simp] theorem State.requestStop_fault (k : Nat) : (s.requestStop k).fault = s.fault := by unfold State.requestStop; split <;> rfl
@[simp] theorem State.requestStop_mem (k : Nat) : (s.requestStop k).mem = s.mem := by unfold State.requestStop; split <;> rfl
@[simp] theorem State.requestStop_mar (k : Nat) : (s.requestStop k).mar = s.mar := by unfold State.requestStop; split <;> rfl
@[simp] theorem State.requestStop_mdr (k : Nat) : (s.requestStop k).mdr = s.mdr := by unfold State.requestStop; split <;> rfl
@[simp] theorem State.requestStop_out (k : Nat) : (s.requestStop k).out = s.out := by unfold State.requestStop; split <;> rfl
@[simp] theorem State.requestStop_reports (k : Nat) : (s.requestStop k).reports = s.reports := by unfold State.requestStop; split <;> rfl
@[simp] theorem State.requestStop_inputs (k : Nat) : (s.requestStop k).inputs = s.inputs := by unfold State.requestStop; split <;> rfl
@[simp] theorem State.requestStop_cfg (k : Nat) : (s.requestStop k).cfg = s.cfg := by unfold State.requestStop; split <;> rfl
theorem State.requestStop_running (k : Nat) (h : s.runState = .running) : s.requestStop k = { s with stopPending := some k } := by simp [State.requestStop, h]
theorem State.requestStop_not_running (k : Nat) (h : s.runState ≠ .running) : s.requestStop k = s := by cases hr : s.runState <;> simp_all [State.requestStop]

@[simp] theorem State.resume_regs : (s.resume).regs = s.regs := by unfold State.resume; split <;> rfl
@[simp] theorem State.resume_pc : (s.resume).pc = s.pc := by unfold State.resume; split <;> rfl
@[simp] theorem State.resume_fault : (s.resume).fault = s.fault := by unfold State.resume; split <;> rfl
@[simp] theorem State.resume_mem : (s.resume).mem = s.mem := by unfold State.resume; split <;> rfl
@[simp] theorem State.resume_mar : (s.resume).mar = s.mar := by unfold State.resume; split <;> rfl
@[simp] theorem State.resume_mdr : (s.resume).mdr = s.mdr := by unfold State.resume; split <;> rfl
@[simp] theorem State.resume_out : (s.resume).out = s.out := by unfold State.resume; split <;> rfl
@[simp] theorem State.resume_reports : (s.resume).reports = s.reports := by unfold State.resume; split <;> rfl
@[simp] theorem State.resume_stopPending : (s.resume).stopPending = s.stopPending := by unfold State.resume; split <;> rfl
@[simp] theorem State.resume_inputs : (s.resume).inputs = s.inputs := by unfold State.resume; split <;> rfl
@[simp] theorem State.resume_cfg : (s.resume).cfg = s.cfg := by unfold State.resume; split <;> rfl
theorem State.resume_stopped (h : s.runState = .stopped) : s.resume = s.setRun .running := by simp [State.resume, h]
theorem State.resume_not_stopped (h : s.runState ≠ .stopped) : s.resume = s := by cases hr : s.runState <;> simp_all [State.resume]

/-! ### Reading registers and memory after an update -/

theorem State.setReg_reg (i j : RegIdx) (v : Byte) : (s.setReg i v).reg j = if i = j then v else s.reg j := by
  simp [State.reg, Vector.getElem_set, Fin.ext_iff]

@[simp] theorem State.setReg_reg_same (i : RegIdx) (v : Byte) : (s.setReg i v).reg i = v := by
  simp [State.setReg_reg]

theorem State.setReg_reg_ne {i j : RegIdx} (v : Byte) (h : i ≠ j) : (s.setReg i v).reg j = s.reg j := by
  simp [State.setReg_reg, h]

/-- An update that keeps the register file keeps every register. -/
theorem State.reg_congr {s t : State} (h : t.regs = s.regs) (i : RegIdx) : t.reg i = s.reg i := by
  simp [State.reg, h]

/-- An update that keeps memory keeps every byte read. -/
theorem State.load_congr {s t : State} (h : t.mem = s.mem) (a : Nat) : t.load a = s.load a := by
  simp [State.load, h]

@[simp] theorem State.advance_reg (n : Nat) (i : RegIdx) : (s.advance n).reg i = s.reg i := rfl
@[simp] theorem State.touch_reg (a : Nat) (v : Byte) (i : RegIdx) : (s.touch a v).reg i = s.reg i := rfl
@[simp] theorem State.afterRead_reg (a : Nat) (i : RegIdx) : (s.afterRead a).reg i = s.reg i := rfl
@[simp] theorem State.store_reg (a : Nat) (v : Byte) (i : RegIdx) : (s.store a v).reg i = s.reg i := rfl
@[simp] theorem State.emit_reg (v : Byte) (i : RegIdx) : (s.emit v).reg i = s.reg i := rfl
@[simp] theorem State.raise_reg (c : FaultCause) (op : Option Byte) (i : RegIdx) : (s.raise c op).reg i = s.reg i := rfl
@[simp] theorem State.erasePort_reg (i : RegIdx) : s.erasePort.reg i = s.reg i := rfl

/-! ### The memory port is erased through every update -/

@[simp] theorem State.touch_erasePort (a : Nat) (v : Byte) : (s.touch a v).erasePort = s.erasePort := rfl
@[simp] theorem State.afterRead_erasePort (a : Nat) : (s.afterRead a).erasePort = s.erasePort := rfl

/-- Two states equal but for the port agree on every other field. -/
theorem State.fields_of_erasePort_eq {s t : State} (h : t.erasePort = s.erasePort) :
    t.regs = s.regs ∧ t.pc = s.pc ∧ t.runState = s.runState ∧ t.fault = s.fault ∧ t.mem = s.mem ∧ t.out = s.out ∧
      t.reports = s.reports ∧ t.stopPending = s.stopPending ∧ t.inputs = s.inputs ∧ t.cfg = s.cfg := by
  cases s; cases t; simp_all [State.erasePort]

end Sys2Proof.Machine
end

