-- ==== Sys2Proof/Laws/Ops.lean ====
section
/-! SUPPORT. One lemma per shared operation: everything it can do. Provers cite these in place of unfolding. -/

namespace Sys2Proof.Machine

/-! ### Operand checks -/

theorem regIndex?_of_lt {r : Byte} (h : r.toNat < 8) : regIndex? r = some ⟨r.toNat, h⟩ := by simp [regIndex?, h]

theorem regIndex?_of_ge {r : Byte} (h : 8 ≤ r.toNat) : regIndex? r = none := by simp [regIndex?, h]

theorem regIndex?_eq_some {r : Byte} {i : RegIdx} (h : regIndex? r = some i) : r.toNat = i.val := by
  unfold regIndex? at h
  split at h
  · cases h; rfl
  · cases h

theorem withReg_of_lt {r : Byte} (h : r.toNat < 8) (s : State) (k : RegIdx → Executed) :
    withReg r s k = k ⟨r.toNat, h⟩ := by simp [withReg, regIndex?_of_lt h]

theorem withReg_of_ge {r : Byte} (h : 8 ≤ r.toNat) (s : State) (k : RegIdx → Executed) :
    withReg r s k = .raised (.invalidIndex r) s := by simp [withReg, regIndex?_of_ge h]

/-- An index check passes with a register number, or raises with the operand byte. -/
theorem withReg_cases (r : Byte) (s : State) (k : RegIdx → Executed) :
    (∃ h : r.toNat < 8, withReg r s k = k ⟨r.toNat, h⟩) ∨
      (8 ≤ r.toNat ∧ withReg r s k = .raised (.invalidIndex r) s) := by
  rcases Nat.lt_or_ge r.toNat 8 with h | h
  · exact .inl ⟨h, withReg_of_lt h s k⟩
  · exact .inr ⟨h, withReg_of_ge h s k⟩

/-- A bounds check passes exactly inside memory, with the same address. -/
theorem inBounds_eq_some {c : Config} {a : Int} {n : Nat} :
    inBounds c a = some n ↔ a = (n : Int) ∧ n < c.memSize := by
  unfold inBounds
  split
  · simp only [Option.some.injEq]; omega
  · simp only [reduceCtorEq, false_iff]; omega

theorem inBounds_eq_none {c : Config} {a : Int} : inBounds c a = none ↔ a < 0 ∨ (c.memSize : Int) ≤ a := by
  unfold inBounds
  split
  · simp only [reduceCtorEq, false_iff]; omega
  · simp only [true_iff]; omega

/-- A bounds check on a stack address passes with that cell, or raises with the value. -/
theorem withCell_cases (a : Int) (s : State) (k : Nat → Executed) :
    (∃ n : Nat, a = (n : Int) ∧ n < s.cfg.memSize ∧ withCell a s k = k n) ∨
      ((a < 0 ∨ (s.cfg.memSize : Int) ≤ a) ∧ withCell a s k = .raised (.outOfBounds a) s) := by
  unfold withCell
  cases h : inBounds s.cfg a with
  | none => exact .inr ⟨inBounds_eq_none.1 h, rfl⟩
  | some n => exact .inl ⟨n, (inBounds_eq_some.1 h).1, (inBounds_eq_some.1 h).2, rfl⟩

theorem withCell_of_mem {a : Int} {s : State} {n : Nat} (h : a = (n : Int)) (hn : n < s.cfg.memSize)
    (k : Nat → Executed) : withCell a s k = k n := by
  simp [withCell, inBounds_eq_some.2 ⟨h, hn⟩]

theorem withCell_of_out {a : Int} {s : State} (h : a < 0 ∨ (s.cfg.memSize : Int) ≤ a) (k : Nat → Executed) :
    withCell a s k = .raised (.outOfBounds a) s := by
  simp [withCell, inBounds_eq_none.2 h]

@[simp] theorem finish_done (op : Byte) (n : Nat) (s : State) : finish op n (.done s) = .next (s.advance (n + 1)) := rfl

@[simp] theorem finish_raised (op : Byte) (n : Nat) (c : FaultCause) (s : State) :
    finish op n (.raised c s) = .next (s.raise c (some op)) := rfl

/-- `ALUApply`: a result in `x[a]`, or the first index that is no register. -/
theorem aluApply_cases (f : AluOp) (a b : Byte) (s : State) :
    (∃ (ha : a.toNat < 8) (hb : b.toNat < 8), aluApply (.function f) a b s =
        .done (s.setReg ⟨a.toNat, ha⟩ (aluResult f (s.reg ⟨a.toNat, ha⟩) (s.reg ⟨b.toNat, hb⟩)))) ∨
      (8 ≤ a.toNat ∧ aluApply (.function f) a b s = .raised (.invalidIndex a) s) ∨
      (a.toNat < 8 ∧ 8 ≤ b.toNat ∧ aluApply (.function f) a b s = .raised (.invalidIndex b) s) := by
  unfold aluApply
  rcases withReg_cases a s _ with ⟨ha, e⟩ | ⟨ha, e⟩
  · rw [e]
    rcases withReg_cases b s _ with ⟨hb, e'⟩ | ⟨hb, e'⟩
    · exact .inl ⟨ha, hb, e'⟩
    · exact .inr (.inr ⟨ha, hb, e'⟩)
  · exact .inr (.inl ⟨ha, e⟩)

/-! ### What an instruction can do -/

/-- A fault taken with a cause and an opcode byte, in a state as before but for the memory port (R79, R80). -/
def State.Raises (s : State) (op : Byte) (c : FaultCause) (t : State) : Prop :=
  ∃ u : State, u.erasePort = s.erasePort ∧ t = u.raise c (some op)

theorem State.raise_raises (s : State) (op : Byte) (c : FaultCause) : s.Raises op c (s.raise c (some op)) :=
  ⟨s, rfl, rfl⟩

/-- HLT. -/
theorem execHlt_cases {s t : State} (h : execHlt s = .next t) : t = s.setRun .halted := by
  cases h; rfl

/-- LDI. -/
theorem execLdi_cases {r imm : Byte} {s t : State} (h : execLdi r imm s = .next t) :
    (∃ hr : r.toNat < 8, t = (s.setReg ⟨r.toNat, hr⟩ imm).advance 3) ∨
      (8 ≤ r.toNat ∧ t = s.raise (.invalidIndex r) (some opcLdi)) := by
  unfold execLdi at h
  rcases withReg_cases r s _ with ⟨hr, e⟩ | ⟨hr, e⟩ <;> rw [e] at h <;> cases h
  · exact .inl ⟨hr, rfl⟩
  · exact .inr ⟨hr, rfl⟩

/-- PRN. -/
theorem execPrn_cases {r : Byte} {s t : State} (h : execPrn r s = .next t) :
    (∃ hr : r.toNat < 8, t = (s.emit (s.reg ⟨r.toNat, hr⟩)).advance 2) ∨
      (8 ≤ r.toNat ∧ t = s.raise (.invalidIndex r) (some opcPrn)) := by
  unfold execPrn at h
  rcases withReg_cases r s _ with ⟨hr, e⟩ | ⟨hr, e⟩ <;> rw [e] at h <;> cases h
  · exact .inl ⟨hr, rfl⟩
  · exact .inr ⟨hr, rfl⟩

/-- PUSH. -/
theorem execPush_cases {r : Byte} {s t : State} (h : execPush r s = .next t) :
    (∃ (hr : r.toNat < 8) (a : Nat), pushAddress s = (a : Int) ∧ a < s.cfg.memSize ∧
        t = ((s.setReg spIndex (BitVec.ofNat 8 a)).store a
          ((s.setReg spIndex (BitVec.ofNat 8 a)).reg ⟨r.toNat, hr⟩)).advance 2) ∨
      (8 ≤ r.toNat ∧ t = s.raise (.invalidIndex r) (some s.cfg.opcPush)) ∨
      (r.toNat < 8 ∧ (pushAddress s < 0 ∨ (s.cfg.memSize : Int) ≤ pushAddress s) ∧
        t = s.raise (.outOfBounds (pushAddress s)) (some s.cfg.opcPush)) := by
  unfold execPush at h
  rcases withReg_cases r s _ with ⟨hr, e⟩ | ⟨hr, e⟩ <;> rw [e] at h
  · rcases withCell_cases (pushAddress s) s _ with ⟨a, ha, hlt, e'⟩ | ⟨ho, e'⟩ <;> rw [e'] at h <;> cases h
    · exact .inl ⟨hr, a, ha, hlt, rfl⟩
    · exact .inr (.inr ⟨hr, ho, rfl⟩)
  · cases h; exact .inr (.inl ⟨hr, rfl⟩)

/-- POP. -/
theorem execPop_cases {r : Byte} {s t : State} (h : execPop r s = .next t) :
    (∃ (hr : r.toNat < 8) (n : Nat), s.sp.toNat < s.cfg.memSize ∧
        popNewSp ⟨r.toNat, hr⟩ (s.load s.sp.toNat) s = (n : Int) ∧ n < s.cfg.memSize ∧
        t = (((s.afterRead s.sp.toNat).setReg ⟨r.toNat, hr⟩ (s.load s.sp.toNat)).setReg spIndex
          (BitVec.ofNat 8 n)).advance 2) ∨
      (8 ≤ r.toNat ∧ t = s.raise (.invalidIndex r) (some s.cfg.opcPop)) ∨
      (r.toNat < 8 ∧ s.cfg.memSize ≤ s.sp.toNat ∧ t = s.raise (.outOfBounds (popAddress s)) (some s.cfg.opcPop)) ∨
      (∃ hr : r.toNat < 8, s.sp.toNat < s.cfg.memSize ∧
        (s.cfg.memSize : Int) ≤ popNewSp ⟨r.toNat, hr⟩ (s.load s.sp.toNat) s ∧
        t = (s.afterRead s.sp.toNat).raise (.outOfBounds (popNewSp ⟨r.toNat, hr⟩ (s.load s.sp.toNat) s))
          (some s.cfg.opcPop)) := by
  unfold execPop at h
  rcases withReg_cases r s _ with ⟨hr, e⟩ | ⟨hr, e⟩ <;> rw [e] at h
  · rcases withCell_cases (popAddress s) s _ with ⟨a, ha, hlt, e'⟩ | ⟨ho, e'⟩ <;> rw [e'] at h
    · have hsp : a = s.sp.toNat := by unfold popAddress at ha; omega
      subst hsp
      rcases withCell_cases (popNewSp ⟨r.toNat, hr⟩ (s.load s.sp.toNat) s) (s.afterRead s.sp.toNat) _ with
        ⟨n, hn, hlt', e''⟩ | ⟨ho, e''⟩ <;> rw [e''] at h <;> cases h
      · exact .inl ⟨hr, n, hlt, hn, hlt', rfl⟩
      · refine .inr (.inr (.inr ⟨hr, hlt, ?_, rfl⟩))
        rcases ho with ho | ho
        · unfold popNewSp at ho; omega
        · exact ho
    · cases h
      refine .inr (.inr (.inl ⟨hr, ?_, rfl⟩))
      unfold popAddress at ho; omega
  · cases h; exact .inr (.inl ⟨hr, rfl⟩)

/-- MUL. -/
theorem execMul_cases {a b : Byte} {s t : State} (h : execMul a b s = .next t) :
    (∃ (ha : a.toNat < 8) (hb : b.toNat < 8),
        t = (s.setReg ⟨a.toNat, ha⟩ (aluResult .mul (s.reg ⟨a.toNat, ha⟩) (s.reg ⟨b.toNat, hb⟩))).advance 3) ∨
      (8 ≤ a.toNat ∧ t = s.raise (.invalidIndex a) (some s.cfg.opcMul)) ∨
      (a.toNat < 8 ∧ 8 ≤ b.toNat ∧ t = s.raise (.invalidIndex b) (some s.cfg.opcMul)) := by
  unfold execMul at h
  rcases aluApply_cases .mul a b s with ⟨ha, hb, e⟩ | ⟨ha, e⟩ | ⟨ha, hb, e⟩ <;> rw [e] at h <;> cases h
  · exact .inl ⟨ha, hb, rfl⟩
  · exact .inr (.inl ⟨ha, rfl⟩)
  · exact .inr (.inr ⟨ha, hb, rfl⟩)

/-- ADD. -/
theorem execAdd_cases {a b : Byte} {s t : State} (h : execAdd a b s = .next t) :
    (∃ (ha : a.toNat < 8) (hb : b.toNat < 8),
        t = (s.setReg ⟨a.toNat, ha⟩ (aluResult .add (s.reg ⟨a.toNat, ha⟩) (s.reg ⟨b.toNat, hb⟩))).advance 3) ∨
      (8 ≤ a.toNat ∧ t = s.raise (.invalidIndex a) (some s.cfg.opcAdd)) ∨
      (a.toNat < 8 ∧ 8 ≤ b.toNat ∧ t = s.raise (.invalidIndex b) (some s.cfg.opcAdd)) := by
  unfold execAdd at h
  rcases aluApply_cases .add a b s with ⟨ha, hb, e⟩ | ⟨ha, e⟩ | ⟨ha, hb, e⟩ <;> rw [e] at h <;> cases h
  · exact .inl ⟨ha, hb, rfl⟩
  · exact .inr (.inl ⟨ha, rfl⟩)
  · exact .inr (.inr ⟨ha, hb, rfl⟩)

/-- Every way an executed instruction ends is a next state. -/
theorem finish_next (op : Byte) (n : Nat) (e : Executed) : ∃ t, finish op n e = .next t := by
  cases e
  · exact ⟨_, rfl⟩
  · exact ⟨_, rfl⟩

/-- No instruction faults or is refused in the host's sense (log 4). -/
theorem exec_next (i : Instr) (s : State) : ∃ t, exec i s = .next t := by
  cases i with
  | hlt => exact ⟨_, rfl⟩
  | prn r => exact finish_next _ _ _
  | push r => exact finish_next _ _ _
  | pop r => exact finish_next _ _ _
  | ldi r v => exact finish_next _ _ _
  | add a b => exact finish_next _ _ _
  | mul a b => exact finish_next _ _ _

end Sys2Proof.Machine
end

