-- ==== Sys2Proof/Laws/Step.lean ====
section
/-! SUPPORT. The fetch and the step: everything each can do. -/

namespace Sys2Proof.Machine

/-- Operand bytes that were all fetched: their number, their values, and a state changed in the port alone. -/
theorem fetchOperands_bytes {op : Byte} {i n : Nat} {s t : State} {bs : List Byte}
    (h : fetchOperands op i n s = .bytes bs t) :
    bs = (List.range n).map (fun k => s.mem.read (s.pc.toNat + (i + k))) ∧ t.erasePort = s.erasePort ∧
      ∀ k < n, s.pc.toNat + (i + k) < s.cfg.memSize := by
  induction n generalizing i s bs with
  | zero => cases h; exact ⟨rfl, rfl, fun k hk => absurd hk (Nat.not_lt_zero k)⟩
  | succ n ih =>
    simp only [fetchOperands] at h
    split at h
    · cases h
    next a ha =>
      obtain ⟨hpc, hlt⟩ := inBounds_eq_some.1 ha
      have hpc : s.pc.toNat + i = a := by omega
      split at h
      next bs' t' e =>
        cases h
        obtain ⟨h1, h2, h3⟩ := ih e
        refine ⟨?_, h2, fun k hk => ?_⟩
        · rw [h1, List.range_succ_eq_map, List.map_cons, List.map_map]
          congr 1
          · simp [State.load, hpc]
          · exact List.map_congr_left fun k _ => by
              simp only [State.afterRead_mem, State.afterRead_pc, Function.comp_apply]
              congr 1; omega
        · cases k with
          | zero => omega
          | succ k =>
            have := h3 k (by omega)
            simp only [State.afterRead_pc, State.afterRead_cfg] at this
            omega
      · cases h

/-- An operand byte outside memory: the first of them in order, and the fault that records its address. -/
theorem fetchOperands_faulted {op : Byte} {i n : Nat} {s t : State} (h : fetchOperands op i n s = .faulted t) :
    ∃ k < n, s.cfg.memSize ≤ s.pc.toNat + (i + k) ∧ (∀ j < k, s.pc.toNat + (i + j) < s.cfg.memSize) ∧
      s.Raises op (.outOfBounds ((s.pc.toNat + (i + k) : Nat) : Int)) t := by
  induction n generalizing i s with
  | zero => cases h
  | succ n ih =>
    simp only [fetchOperands] at h
    split at h
    next ha =>
      cases h
      refine ⟨0, Nat.succ_pos n, ?_, fun j hj => absurd hj (Nat.not_lt_zero j), ?_⟩
      · have := inBounds_eq_none.1 ha; omega
      · exact ⟨s, rfl, by simp⟩
    next a ha =>
      obtain ⟨hpc, hlt⟩ := inBounds_eq_some.1 ha
      split at h
      · cases h
      next t' e =>
        cases h
        obtain ⟨k, hk, hge, hall, u, hu, ht⟩ := ih e
        simp only [State.afterRead_pc, State.afterRead_cfg] at hge hall ht
        refine ⟨k + 1, by omega, by omega, fun j hj => ?_, u, by simpa using hu, ?_⟩
        · cases j with
          | zero => omega
          | succ j => have := hall j (by omega); omega
        · have e : i + 1 + k = i + (k + 1) := by omega
          rw [← e]; exact ht

/-- Operand fetch succeeds when every byte lies in memory. -/
theorem fetchOperands_of_lt {op : Byte} {i n : Nat} {s : State} (h : s.pc.toNat + (i + n) ≤ s.cfg.memSize) :
    ∃ t, t.erasePort = s.erasePort ∧
      fetchOperands op i n s = .bytes ((List.range n).map (fun k => s.mem.read (s.pc.toNat + (i + k)))) t := by
  cases e : fetchOperands op i n s with
  | bytes bs t =>
    obtain ⟨h1, h2, -⟩ := fetchOperands_bytes e
    exact ⟨t, h2, by rw [h1]⟩
  | faulted t =>
    obtain ⟨k, hk, hge, -, -⟩ := fetchOperands_faulted e
    omega

/-- Operand fetch faults, at the first byte outside memory. -/
theorem fetchOperands_of_ge {op : Byte} {i n k : Nat} {s : State} (hk : k < n)
    (hge : s.cfg.memSize ≤ s.pc.toNat + (i + k)) (hlt : ∀ j < k, s.pc.toNat + (i + j) < s.cfg.memSize) :
    ∃ t, fetchOperands op i n s = .faulted t ∧ s.Raises op (.outOfBounds ((s.pc.toNat + (i + k) : Nat) : Int)) t := by
  cases e : fetchOperands op i n s with
  | bytes bs t =>
    obtain ⟨-, -, h3⟩ := fetchOperands_bytes e
    have := h3 k hk
    omega
  | faulted t =>
    obtain ⟨k', hk', hge', hlt', hr⟩ := fetchOperands_faulted e
    have : k' = k := by
      rcases Nat.lt_trichotomy k' k with h | h | h
      · have := hlt k' h; omega
      · exact h
      · have := hlt' k h; omega
    subst this
    exact ⟨t, rfl, hr⟩

/-- What the fetch half can do with parameters that meet R6: the PC is outside memory; the opcode is unknown; an
operand byte lies outside memory; or an instruction is fetched, its opcode and operand bytes those at the PC. -/
theorem fetch_cases {s : State} (hc : s.cfg.Valid) :
    (s.cfg.memSize ≤ s.pc.toNat ∧ fetch s = .ended (s.raise (.outOfBounds (s.pc.toNat : Int)) none)) ∨
    (s.pc.toNat < s.cfg.memSize ∧ classify s.cfg (s.load s.pc.toNat) = .unknown ∧
      fetch s = .ended ((s.afterRead s.pc.toNat).skipUnknown (s.load s.pc.toNat))) ∨
    (∃ t k, s.pc.toNat < s.cfg.memSize ∧ classify s.cfg (s.load s.pc.toNat) ≠ .unknown ∧ 1 ≤ k ∧
      k ≤ operandCount (s.load s.pc.toNat) ∧ s.cfg.memSize ≤ s.pc.toNat + k ∧
      (∀ j < k, s.pc.toNat + j < s.cfg.memSize) ∧
      s.Raises (s.load s.pc.toNat) (.outOfBounds ((s.pc.toNat + k : Nat) : Int)) t ∧ fetch s = .ended t) ∨
    (∃ i t, s.pc.toNat + operandCount (s.load s.pc.toNat) < s.cfg.memSize ∧
      classify s.cfg (s.load s.pc.toNat) ≠ .unknown ∧ opcodeOf s.cfg i = s.load s.pc.toNat ∧
      operandsOf i = (List.range (operandCount (s.load s.pc.toNat))).map (fun k => s.mem.read (s.pc.toNat + (1 + k))) ∧
      decode s.cfg (s.load s.pc.toNat :: operandsOf i) = .instr i [] ∧
      t.erasePort = s.erasePort ∧ fetch s = .instr i t) := by
  unfold fetch
  cases hb : inBounds s.cfg (s.pc.toNat : Int) with
  | none =>
    have := inBounds_eq_none.1 hb
    exact .inl ⟨by omega, rfl⟩
  | some p =>
    obtain ⟨hp, hlt⟩ := inBounds_eq_some.1 hb
    obtain rfl : p = s.pc.toNat := by omega
    simp only
    by_cases hu : classify s.cfg (s.load s.pc.toNat) = .unknown
    · exact .inr (.inl ⟨hlt, hu, by simp [hu]⟩)
    · simp only [hu, if_false]
      cases he : fetchOperands (s.load s.pc.toNat) 1 (operandCount (s.load s.pc.toNat)) (s.afterRead s.pc.toNat) with
      | faulted t =>
        obtain ⟨k, hk, hge, hall, u, hu', ht⟩ := fetchOperands_faulted he
        simp only [State.afterRead_pc, State.afterRead_cfg] at hge hall ht
        refine .inr (.inr (.inl ⟨t, 1 + k, hlt, by simp [hu], by omega, by omega, by omega, fun j hj => ?_,
          ⟨u, by simpa using hu', ht⟩, rfl⟩))
        cases j with
        | zero => simpa using hlt
        | succ j => have := hall j (by omega); omega
      | bytes bs t =>
        obtain ⟨h1, h2, h3⟩ := fetchOperands_bytes he
        simp only [State.afterRead_pc, State.afterRead_cfg, State.afterRead_mem] at h1 h3
        have hlen : bs.length = operandCount (s.load s.pc.toNat) := by simp [h1]
        obtain ⟨i, hd, ho, hop⟩ := decode_of_count hc hu hlen
        refine .inr (.inr (.inr ⟨i, t, ?_, by simp [hu], ho, by rw [hop, h1], by rw [hop]; exact hd, by simpa using h2,
          by simp [hd]⟩))
        cases hn : operandCount (s.load s.pc.toNat) with
        | zero => simpa using hlt
        | succ n => have := h3 n (by omega); omega

/-- At an instruction, the step is the instruction step. -/
theorem step_of_atInstruction {s : State} (hc : s.cfg.Valid) (h : s.AtInstruction) : step s = instructionStep s := by
  simp [step, hc, nextTurn, engineTurn, h.running, h.noStop, h.silent]

/-- What a step can do when it answers a next state. `later` are the host's turns after this one. -/
theorem step_cases {s t : State} (h : step s = .next t) :
    s.cfg.Valid ∧
    ((∃ m later, s.inputs = some m :: later ∧ hostMove m { s with inputs := later } = .next t) ∨
      (s.NoReset ∧ ∃ later, (s.inputs = none :: later ∨ s.inputs = [] ∧ later = []) ∧
        ((s.runState ≠ .running ∧ t = { s with inputs := later }) ∨
          (s.runState = .running ∧ s.stopPending = some 0 ∧ t = { s with inputs := later }.takeStop) ∨
          (s.runState = .running ∧ ∃ p, (s.stopPending = none ∧ p = none ∨ ∃ k, s.stopPending = some (k + 1) ∧ p = some k) ∧
            instructionStep { s with inputs := later, stopPending := p } = .next t)))) := by
  unfold step at h
  split at h
  next hc =>
    refine ⟨hc, ?_⟩
    have key : ∀ later, (match engineTurn { s with inputs := later } with
        | .host m t => hostMove m t
        | .instruction t => instructionStep t
        | .noInstruction t => .next t) = .next t →
        ((s.runState ≠ .running ∧ t = { s with inputs := later }) ∨
          (s.runState = .running ∧ s.stopPending = some 0 ∧ t = { s with inputs := later }.takeStop) ∨
          (s.runState = .running ∧ ∃ p, (s.stopPending = none ∧ p = none ∨ ∃ k, s.stopPending = some (k + 1) ∧ p = some k) ∧
            instructionStep { s with inputs := later, stopPending := p } = .next t)) := by
      intro later hk
      unfold engineTurn at hk
      cases hr : s.runState with
      | running =>
        simp only [hr] at hk
        rcases hp : s.stopPending with _ | _ | k <;> simp only [hp] at hk
        · exact .inr (.inr ⟨rfl, none, .inl ⟨rfl, rfl⟩, by simpa using hk⟩)
        · cases hk; exact .inr (.inl ⟨rfl, rfl, by simp⟩)
        · exact .inr (.inr ⟨rfl, some k, .inr ⟨k, rfl, rfl⟩, by simpa using hk⟩)
      | halted => simp only [hr] at hk; cases hk; exact .inl ⟨by simp, by simp⟩
      | faulted => simp only [hr] at hk; cases hk; exact .inl ⟨by simp, by simp⟩
      | stopped => simp only [hr] at hk; cases hk; exact .inl ⟨by simp, by simp⟩
    unfold nextTurn at h
    rcases hi : s.inputs with _ | ⟨_ | m, later⟩ <;> simp only [hi] at h
    · have e : { s with inputs := [] } = s := by rw [← hi]
      exact .inr ⟨by simp [State.NoReset, hi], [], .inr ⟨rfl, rfl⟩, key [] (by rw [e]; exact h)⟩
    · exact .inr ⟨by simp [State.NoReset, hi], later, .inl rfl, key later h⟩
    · exact .inl ⟨m, later, rfl, h⟩
  · cases h

/-- A run takes its first step. -/
theorem run_succ {s t : State} (k : Nat) (h : step s = .next t) :
    Sys2Proof.core.run (k + 1) s = Sys2Proof.core.run k t := by
  have h' : Sys2Proof.core.step s = .next t := h
  simp only [Host.Core.run, h']

@[simp] theorem run_zero (s : State) : Sys2Proof.core.run 0 s = .next s := rfl

/-- What a host input can do when it answers a next state. -/
theorem hostMove_cases {m : HostInput} {s t : State} (h : hostMove m s = .next t) :
    (m = .reset none ∧ t = s.applyReset) ∨
    (∃ image, m = .reset (some image) ∧ image.length = s.cfg.memSize ∧
      t = { s with mem := Memory.ofBytes 0 image }.applyReset) ∨
    (∃ k, m = .stopReq k ∧ t = s.requestStop k) ∨ (m = .resume ∧ t = s.resume) := by
  rcases m with (_ | image) | k | _
  · cases h; exact .inl ⟨rfl, rfl⟩
  · simp only [hostMove] at h
    split at h
    · cases h; exact .inr (.inl ⟨image, rfl, ‹_›, rfl⟩)
    · cases h
  · cases h; exact .inr (.inr (.inl ⟨k, rfl, rfl⟩))
  · cases h; exact .inr (.inr (.inr ⟨rfl, rfl⟩))

end Sys2Proof.Machine
end

