-- ==== Sys2Proof/Laws/Exec.lean ====
section
/-! SUPPORT. The instruction step as a whole: one lemma for all instructions, one for the step, and that the step does
not look at a pending stop. -/

namespace Sys2Proof.Machine

/-- Every operand count is at most 3. -/
theorem operandCount_le (op : Byte) : operandCount op ≤ 3 := by
  have := (op.extractLsb' 6 2).isLt
  unfold operandCount
  omega

/-- Every value `fault_addr` is raised with fits its 10 bits. -/
theorem toInt_ofInt_addr (x : Int) (h1 : -512 ≤ x) (h2 : x < 512) : (BitVec.ofInt 10 x).toInt = x := by
  rw [BitVec.toInt_ofInt]
  exact Int.bmod_eq_of_le (by omega) (by omega)

/-- The length of an instruction is 1 and its opcode's operand count. -/
theorem instr_length_eq {c : Config} (hc : c.Valid) (i : Instr) : i.length = 1 + operandCount (opcodeOf c i) := by
  obtain ⟨n1, n2, n3, n4, n5, n6, n7⟩ := operandCount_opcodes hc
  cases i <;> simp [Instr.length, opcodeOf, *]

/-- A fault taken in states that differ in the port alone gives states that differ in the port alone. -/
theorem State.raise_erasePort {u s : State} (h : u.erasePort = s.erasePort) (c : FaultCause)
    (op : Option Byte) : (u.raise c op).erasePort = (s.raise c op).erasePort := by
  cases s; cases u; simp_all [State.erasePort, State.raise]

/-- Every way an instruction can end: HLT halts; it completes, the run state, the fault record and all it does not name
as before and the PC past its bytes, and only PUSH writes memory; or it takes a fault. -/
theorem exec_cases {i : Instr} {s t : State} (h : exec i s = .next t) :
    (i = .hlt ∧ t = s.setRun .halted) ∨
    (t.runState = s.runState ∧ t.fault = s.fault ∧ t.pc = s.pc + BitVec.ofNat 9 i.length ∧ i ≠ .hlt ∧
      t.cfg = s.cfg ∧ t.inputs = s.inputs ∧ t.stopPending = s.stopPending ∧ t.reports = s.reports ∧
      (t.out = s.out ∨ ∃ v, t.out = s.out ++ [v]) ∧
      (t.mem = s.mem ∨ ∃ r a v, i = .push r ∧ pushAddress s = (a : Nat) ∧ a < s.cfg.memSize ∧
        t.mem = s.mem.write a v)) ∨
    (∃ c u, State.erasePort u = s.erasePort ∧ t = u.raise c (some (opcodeOf s.cfg i)) ∧
      ((∃ r, c = .invalidIndex r ∧ 8 ≤ r.toNat) ∨
        ∃ a : Int, c = .outOfBounds a ∧ (a = -1 ∨ (s.cfg.memSize : Int) ≤ a) ∧ a ≤ 256)) := by
  cases i with
  | hlt => exact .inl ⟨rfl, execHlt_cases h⟩
  | ldi r v =>
    rcases execLdi_cases h with ⟨hr, rfl⟩ | ⟨hr, rfl⟩
    · exact .inr (.inl ⟨rfl, rfl, rfl, (by simp), rfl, rfl, rfl, rfl, .inl rfl, .inl rfl⟩)
    · exact .inr (.inr ⟨_, s, rfl, rfl, .inl ⟨_, rfl, hr⟩⟩)
  | prn r =>
    rcases execPrn_cases h with ⟨hr, rfl⟩ | ⟨hr, rfl⟩
    · exact .inr (.inl ⟨rfl, rfl, rfl, (by simp), rfl, rfl, rfl, rfl, .inr ⟨_, rfl⟩, .inl rfl⟩)
    · exact .inr (.inr ⟨_, s, rfl, rfl, .inl ⟨_, rfl, hr⟩⟩)
  | push r =>
    have hlt := s.sp.isLt
    rcases execPush_cases h with ⟨hr, a, ha, hl, rfl⟩ | ⟨hr, rfl⟩ | ⟨hr, ho, rfl⟩
    · exact .inr (.inl ⟨rfl, rfl, rfl, (by simp), rfl, rfl, rfl, rfl, .inl rfl, .inr ⟨r, a, _, rfl, ha, hl, rfl⟩⟩)
    · exact .inr (.inr ⟨_, s, rfl, rfl, .inl ⟨_, rfl, hr⟩⟩)
    · refine .inr (.inr ⟨_, s, rfl, rfl, .inr ⟨_, rfl, ?_, ?_⟩⟩) <;> simp only [pushAddress] at * <;> omega
  | pop r =>
    have hlt := s.sp.isLt
    rcases execPop_cases h with ⟨hr, a, ha, hl, hk, rfl⟩ | ⟨hr, rfl⟩ | ⟨hr, ho, rfl⟩ | ⟨hr, h1, h2, rfl⟩
    · exact .inr (.inl ⟨rfl, rfl, rfl, (by simp), rfl, rfl, rfl, rfl, .inl rfl, .inl rfl⟩)
    · exact .inr (.inr ⟨_, s, rfl, rfl, .inl ⟨_, rfl, hr⟩⟩)
    · refine .inr (.inr ⟨_, s, rfl, rfl, .inr ⟨_, rfl, ?_, ?_⟩⟩) <;> simp only [popAddress] at * <;> omega
    · refine .inr (.inr ⟨_, s.afterRead s.sp.toNat, rfl, rfl, .inr ⟨_, rfl, .inr h2, ?_⟩⟩)
      simp only [popNewSp]; split <;> omega
  | mul a b =>
    rcases execMul_cases h with ⟨_, _, rfl⟩ | ⟨hr, rfl⟩ | ⟨_, hr, rfl⟩
    · exact .inr (.inl ⟨rfl, rfl, rfl, (by simp), rfl, rfl, rfl, rfl, .inl rfl, .inl rfl⟩)
    all_goals exact .inr (.inr ⟨_, s, rfl, rfl, .inl ⟨_, rfl, hr⟩⟩)
  | add a b =>
    rcases execAdd_cases h with ⟨_, _, rfl⟩ | ⟨hr, rfl⟩ | ⟨_, hr, rfl⟩
    · exact .inr (.inl ⟨rfl, rfl, rfl, (by simp), rfl, rfl, rfl, rfl, .inl rfl, .inl rfl⟩)
    all_goals exact .inr (.inr ⟨_, s, rfl, rfl, .inl ⟨_, rfl, hr⟩⟩)

/-- Every way an instruction step can end: HLT; an unknown opcode; an instruction completed; a fault taken before the
opcode fetch or after it. -/
theorem instructionStep_cases {s t : State} (hc : s.cfg.Valid) (h : instructionStep s = .next t) :
    (s.pc.toNat < s.cfg.memSize ∧ s.load s.pc.toNat = opcHlt ∧ t.erasePort = (s.setRun .halted).erasePort) ∨
    (s.pc.toNat < s.cfg.memSize ∧ classify s.cfg (s.load s.pc.toNat) = .unknown ∧
      t.erasePort = (s.skipUnknown (s.load s.pc.toNat)).erasePort) ∨
    (classify s.cfg (s.load s.pc.toNat) ≠ .unknown ∧ s.pc.toNat + operandCount (s.load s.pc.toNat) < s.cfg.memSize ∧
      t.runState = s.runState ∧ t.fault = s.fault ∧ t.pc = s.pc + BitVec.ofNat 9 (1 + operandCount (s.load s.pc.toNat)) ∧
      t.cfg = s.cfg ∧ t.inputs = s.inputs ∧ t.stopPending = s.stopPending ∧ t.reports = s.reports ∧
      (t.out = s.out ∨ ∃ v, t.out = s.out ++ [v]) ∧
      (t.mem = s.mem ∨ ∃ a v, s.load s.pc.toNat = s.cfg.opcPush ∧
        pushAddress s = (a : Nat) ∧ a < s.cfg.memSize ∧ t.mem = s.mem.write a v)) ∨
    (∃ c op u, State.erasePort u = s.erasePort ∧ t = u.raise c op ∧
      (op = none ∧ s.cfg.memSize ≤ s.pc.toNat ∧ c = .outOfBounds s.pc.toNat ∨
       op = some (s.load s.pc.toNat) ∧ s.pc.toNat < s.cfg.memSize ∧
        ((∃ r, c = .invalidIndex r ∧ 8 ≤ r.toNat) ∨
        ∃ a : Int, c = .outOfBounds a ∧ (a = -1 ∨ (s.cfg.memSize : Int) ≤ a) ∧ a ≤ 256))) := by
  have hm := hc.1
  unfold instructionStep at h
  rcases fetch_cases hc with ⟨hp, e⟩ | ⟨hp, hu, e⟩ | ⟨u, k, hp, hu, h1, h2, h3, h4, ⟨v, hv, rfl⟩, e⟩ | ⟨i, u, hp, hu, ho, hos, hd, hue, e⟩ <;> rw [e] at h
  · cases h; exact .inr (.inr (.inr ⟨_, none, s, rfl, rfl, .inl ⟨rfl, hp, rfl⟩⟩))
  · cases h; exact .inr (.inl ⟨hp, hu, rfl⟩)
  · cases h
    refine .inr (.inr (.inr ⟨_, _, v, hv, rfl, .inr ⟨rfl, hp, .inr ⟨_, rfl, .inr (by omega), ?_⟩⟩⟩))
    have := h4 (k-1) (by omega)
    omega
  · dsimp only at h
    obtain ⟨f1,f2,f3,f4,f5,f6,f7,f8,f9,f10⟩ := State.fields_of_erasePort_eq hue
    rcases exec_cases h with ⟨rfl, rfl⟩ | ⟨a1,a2,a3,a0,a4,a5,a6,a7,a8,a9⟩ | ⟨c, w, hw, rfl, hcase⟩
    · refine .inl ⟨by omega, ho.symm, ?_⟩
      cases s; cases u; simp_all [State.erasePort, State.setRun]
    · refine .inr (.inr (.inl ⟨hu, hp, a1.trans f3, a2.trans f4, ?_, a4.trans f10, a5.trans f9, a6.trans f8, a7.trans f7, ?_, ?_⟩))
      · rw [a3, f2, instr_length_eq hc i, ho]
      · rcases a8 with a8 | ⟨v, a8⟩
        · exact .inl (a8.trans f6)
        · exact .inr ⟨v, by rw [a8, f6]⟩
      · rcases a9 with a9 | ⟨r, a, v, rfl, b1, b2, b3⟩
        · exact .inl (a9.trans f5)
        · refine .inr ⟨a, v, ho.symm, ?_, by rw [← f10]; exact b2, by rw [b3, f5]⟩
          rw [← b1]; simp only [pushAddress, State.sp, State.reg, f1]
    · refine .inr (.inr (.inr ⟨c, _, w, hw.trans hue, rfl, .inr ⟨?_, by omega, ?_⟩⟩))
      · rw [f10, ho]
      · rw [f10] at hcase; exact hcase

/-- With parameters that meet R6 an instruction step answers a next state. -/
theorem instructionStep_next {s : State} (hc : s.cfg.Valid) : ∃ t, instructionStep s = .next t := by
  unfold instructionStep
  rcases fetch_cases hc with ⟨-, e⟩ | ⟨-, -, e⟩ | ⟨u, k, -, -, -, -, -, -, -, e⟩ | ⟨j, u, -, -, -, -, -, -, e⟩ <;> rw [e]
  · exact ⟨_, rfl⟩
  · exact ⟨_, rfl⟩
  · exact ⟨_, rfl⟩
  · exact exec_next j u

/-! ### An instruction step does not look at a pending stop -/

/-- The state with another pending stop. -/
def State.withStop (p : Option Nat) (s : State) : State := { s with stopPending := p }

/-- An instruction does not look at a pending stop. -/
theorem exec_withStop (p : Option Nat) {i : Instr} {s t : State} (h : exec i s = .next t) :
    exec i (s.withStop p) = .next (t.withStop p) := by
  cases i with
  | hlt => cases h; rfl
  | ldi r v =>
    simp only [exec, execLdi, withReg] at h ⊢
    cases e : regIndex? r <;> simp only [e] at h ⊢ <;> cases h <;> rfl
  | prn r =>
    simp only [exec, execPrn, withReg] at h ⊢
    cases e : regIndex? r <;> simp only [e] at h ⊢ <;> cases h <;> rfl
  | mul a b =>
    simp only [exec, execMul, aluApply, withReg] at h ⊢
    cases e : regIndex? a <;> simp only [e] at h ⊢
    · cases h; rfl
    · cases e : regIndex? b <;> simp only [e] at h ⊢ <;> cases h <;> rfl
  | add a b =>
    simp only [exec, execAdd, aluApply, withReg] at h ⊢
    cases e : regIndex? a <;> simp only [e] at h ⊢
    · cases h; rfl
    · cases e : regIndex? b <;> simp only [e] at h ⊢ <;> cases h <;> rfl
  | push r =>
    simp only [exec, execPush, withReg, withCell] at h ⊢
    have e1 : pushAddress (s.withStop p) = pushAddress s := rfl
    have e2 : (s.withStop p).cfg = s.cfg := rfl
    cases e : regIndex? r <;> simp only [e, e1, e2] at h ⊢
    · cases h; rfl
    · cases e : inBounds s.cfg (pushAddress s) <;> simp only [e] at h ⊢ <;> cases h <;> rfl
  | pop r =>
    simp only [exec, execPop, withReg, withCell] at h ⊢
    have e1 : popAddress (s.withStop p) = popAddress s := rfl
    have e2 : (s.withStop p).cfg = s.cfg := rfl
    have e4 : ∀ a, (s.withStop p).load a = s.load a := fun _ => rfl
    have e3 : ∀ i v, popNewSp i v (s.withStop p) = popNewSp i v s := fun _ _ => rfl
    have e5 : ∀ a, ((s.withStop p).afterRead a).cfg = s.cfg := fun _ => rfl
    have e6 : ∀ a, (s.afterRead a).cfg = s.cfg := fun _ => rfl
    cases e : regIndex? r <;> simp only [e, e1, e2, e3, e4, e5, e6] at h ⊢
    · cases h; rfl
    · cases e : inBounds s.cfg (popAddress s) <;> simp only [e] at h ⊢
      · cases h; rfl
      · rename_i i _ a
        cases e : inBounds s.cfg (popNewSp i (s.load a) s) <;> simp only [e] at h ⊢ <;> cases h <;> rfl

/-- Fetching operands does not look at a pending stop. -/
theorem fetchOperands_withStop (p : Option Nat) (op : Byte) (i n : Nat) (s : State) :
    fetchOperands op i n (s.withStop p) =
      match fetchOperands op i n s with
      | .bytes bs t => .bytes bs (t.withStop p)
      | .faulted t => .faulted (t.withStop p) := by
  induction n generalizing i s with
  | zero => rfl
  | succ n ih =>
    simp only [fetchOperands]
    have e1 : (s.withStop p).cfg = s.cfg := rfl
    have e2 : (s.withStop p).pc = s.pc := rfl
    have e3 : ∀ a, (s.withStop p).afterRead a = (s.afterRead a).withStop p := fun _ => rfl
    have e4 : ∀ a, (s.withStop p).load a = s.load a := fun _ => rfl
    simp only [e1, e2, e3, e4, ih]
    cases inBounds s.cfg ((s.pc.toNat : Int) + i) with
    | none => rfl
    | some a => simp only; cases fetchOperands op (i+1) n (s.afterRead a) <;> rfl

/-- The instruction step does not look at a pending stop. -/
theorem instructionStep_withStop (p : Option Nat) {s t : State} (h : instructionStep s = .next t) :
    instructionStep (s.withStop p) = .next (t.withStop p) := by
  unfold instructionStep at h ⊢
  have key : fetch (s.withStop p) =
      match fetch s with
      | .instr i t => .instr i (t.withStop p)
      | .ended t => .ended (t.withStop p)
      | .misfit => .misfit := by
    unfold fetch
    have e1 : (s.withStop p).cfg = s.cfg := rfl
    have e2 : (s.withStop p).pc = s.pc := rfl
    have e3 : ∀ a, (s.withStop p).afterRead a = (s.afterRead a).withStop p := fun _ => rfl
    have e4 : ∀ a, (s.withStop p).load a = s.load a := fun _ => rfl
    simp only [e1, e2, e3, e4, fetchOperands_withStop]
    cases inBounds s.cfg (s.pc.toNat : Int) with
    | none => rfl
    | some a =>
      simp only
      split
      · rfl
      · cases fetchOperands (s.load a) 1 (operandCount (s.load a)) (s.afterRead a) with
        | faulted t => rfl
        | bytes bs t => simp only; cases decode s.cfg (s.load a :: bs) <;> rfl
  rw [key]
  cases hf : fetch s with
  | ended t => rw [hf] at h; cases h; rfl
  | misfit => rw [hf] at h; cases h
  | instr i u => rw [hf] at h; exact exec_withStop p h

end Sys2Proof.Machine
end

