-- ==== Sys2Proof/Laws/PerInstr.lean ====
section
/-! SUPPORT. Statements made per instruction. -/

namespace Sys2Proof.Laws.EncodeLength

/-- The length rule of 30_encoding.md rule R44: the encoding has `1 + opcode[7:6]` bytes, the length of the
instruction's format. -/
def Statement (i : Instr) : Prop :=
  ∀ c : Config, c.Valid →
    (encode c i).length = 1 + operandCount (opcodeOf c i) ∧ (encode c i).length = i.length

theorem hlt : Statement .hlt := fun _ _ => ⟨by simp +decide [encode, opcodeOf, operandsOf, operandCount, opcHlt], rfl⟩
theorem prn (r : Byte) : Statement (.prn r) := fun _ _ => ⟨by simp +decide [encode, opcodeOf, operandsOf, operandCount, opcPrn], rfl⟩
theorem push (r : Byte) : Statement (.push r) := fun _ h => ⟨by simp [encode, opcodeOf, operandsOf, operandCount, h.2.2.1], rfl⟩
theorem pop (r : Byte) : Statement (.pop r) := fun _ h => ⟨by simp [encode, opcodeOf, operandsOf, operandCount, h.2.2.2.1], rfl⟩
theorem ldi (r imm : Byte) : Statement (.ldi r imm) := fun _ _ => ⟨by simp +decide [encode, opcodeOf, operandsOf, operandCount, opcLdi], rfl⟩
theorem add (a b : Byte) : Statement (.add a b) := fun _ h => ⟨by simp [encode, opcodeOf, operandsOf, operandCount, h.2.2.2.2.1], rfl⟩
theorem mul (a b : Byte) : Statement (.mul a b) := fun _ h => ⟨by simp [encode, opcodeOf, operandsOf, operandCount, h.2.1], rfl⟩

end Sys2Proof.Laws.EncodeLength
end

