-- ==== Sys2Proof/Tests/Slice0.lean ====
section
/-! SUPPORT. The model's own tests. Expected results are the vectors of 95_test_vectors.md (their ids stand in the
comments) or words written out from 30_encoding.md rules R46 and R51. At the end, for each statement with hypotheses,
states and operands that meet them. -/

namespace Sys2Proof.Tests

open Sys2Proof.Machine

/-- The next state of an outcome. -/
def after (o : Host.Outcome State Fault Refusal) : Option State :=
  match o with
  | .next s => some s
  | .fault _ => none
  | .refused _ => none

/-- One step from a state, and a check of the next state. -/
def stepGives (s : State) (p : State → Bool) : Bool := (after (step s)).any p

/-- The reset state with registers R0 to R7, the PC and memory cells (95_test_vectors.md's start states). -/
def start (regs : Vector Byte 8) (pc : Addr) (mem : Memory) : State :=
  { State.reset with regs := regs, pc := pc, mem := mem }

/-- The registers after reset. -/
def resetRegs : Vector Byte 8 := State.reset.regs

/-- Parameter values that meet R6 and reproduce the reference: 255 cells, ADD not wired. -/
def reference : Config := { Config.hw with memSize := 255, addWired := false }

/-- Parameter values that meet R6 with the fewest cells that leave SP - 1 out of reach at SP 255. -/
def smaller : Config := { Config.hw with memSize := 254 }

/-! ### Well-formedness and register form: each check refuses an ill-formed term -/

theorem test_wellFormed_add_unwired : WellFormed reference (.add 0 0) = false := by decide
theorem test_wellFormed_add_wired : WellFormed Config.hw (.add 8 9) = true := by decide
theorem test_registerForm_prn : RegisterForm (.prn 8) = false := by decide
theorem test_registerForm_push : RegisterForm (.push 0xFF) = false := by decide
theorem test_registerForm_pop : RegisterForm (.pop 8) = false := by decide
theorem test_registerForm_ldi : RegisterForm (.ldi 8 0) = false ∧ RegisterForm (.ldi 7 0xFF) = true := by decide
theorem test_registerForm_add : RegisterForm (.add 0 8) = false ∧ RegisterForm (.add 8 0) = false := by decide
theorem test_registerForm_mul : RegisterForm (.mul 0 8) = false ∧ RegisterForm (.mul 8 0) = false := by decide
theorem test_config_hw_valid : Config.hw.Valid := by decide
theorem test_config_reference_valid : reference.Valid ∧ smaller.Valid := by decide
/-- R6: all seven opcode values are distinct; bits [7:6] of MUL are 0b10; MEM_SIZE is at most 256. -/
theorem test_config_invalid : ¬ ({ Config.hw with opcPop := 0x45 } : Config).Valid ∧
    ¬ ({ Config.hw with opcMul := 0x42 } : Config).Valid ∧ ¬ ({ Config.hw with memSize := 257 } : Config).Valid := by decide

/-! ### Decoding: words written out bit by bit from R47 and R46 -/

theorem test_decode_hlt : decode Config.hw [0b00000001#8] = .instr .hlt [] := by decide
theorem test_decode_prn : decode Config.hw [0b01000111#8, 0b00000101#8] = .instr (.prn 5#8) [] := by decide
theorem test_decode_push : decode Config.hw [0b01000101#8, 0b00000111#8, 1#8] = .instr (.push 7#8) [1#8] := by decide
theorem test_decode_pop : decode Config.hw [0b01000110#8, 0b11111111#8] = .instr (.pop 255#8) [] := by decide
theorem test_decode_ldi : decode Config.hw [0b10000010#8, 0b00000011#8, 0b10000000#8] = .instr (.ldi 3#8 128#8) [] := by
  decide
theorem test_decode_add : decode Config.hw [0b10100000#8, 0b00000010#8, 0b00000011#8] = .instr (.add 2#8 3#8) [] := by
  decide
theorem test_decode_mul : decode Config.hw [0b10100010#8, 0b00000001#8, 0b00000110#8] = .instr (.mul 1#8 6#8) [] := by
  decide
theorem test_decode_truncated : decode Config.hw [0b10000010#8, 0#8] = .truncated 0x82#8 ∧
    decode Config.hw [] = .noBytes ∧ decode Config.hw [0xC2#8, 0#8] = .unknownOpcode 0xC2#8 := by decide
/-- A13: without ADD_WIRED 0xA0 is unknown. -/
theorem test_decode_add_unwired : decode reference [0xA0#8, 0#8, 1#8] = .unknownOpcode 0xA0#8 := by decide
theorem test_tableWord : decodeTableWord 8 0x01 = some .hlt ∧ decodeTableWord 8 0x45 = some (.push 0#8) ∧
    decodeTableWord 24 0x0302A0 = some (.add 2#8 3#8) ∧ decodeTableWord 8 0x00 = none := by decide

/-! ### Steps -/

/-- H2. -/
theorem test_hlt : stepGives (start resetRegs 5 [(5, 0x01)]) (fun t => t.runState = .halted ∧ t.pc = 5) = true := by decide
/-- H3. -/
theorem test_halted_stays : stepGives { State.reset with runState := .halted, pc := 5 }
    (fun t => t = { State.reset with runState := .halted, pc := 5 }) = true := by decide
/-- P-2. -/
theorem test_prn_sp : stepGives (start resetRegs 0 [(0, 0x47), (1, 7)]) (fun t => t.out = [244] ∧ t.pc = 2) = true := by
  decide
/-- P-4. -/
theorem test_prn_index : stepGives (start resetRegs 0 [(0, 0x47), (1, 8)])
    (fun t => t.out = [] ∧ t.fault = ⟨.invalidRegisterIndex, 0, true, 0x47, 0, 8⟩) = true := by decide
/-- S2: PUSH R7 stores the decremented SP. -/
theorem test_push_sp : stepGives (start resetRegs 0 [(0, 0x45), (1, 7)])
    (fun t => t.sp = 0xF3 ∧ t.load 0xF3 = 0xF3 ∧ t.pc = 2) = true := by decide
/-- S3: SP does not wrap. -/
theorem test_push_below : stepGives (start #v[0, 0, 0, 0, 0, 0, 0, 0] 0 [(0, 0x45)])
    (fun t => t.sp = 0 ∧ t.fault = ⟨.outOfBoundsAddress, 0, true, 0x45, -1, 0⟩) = true := by decide
/-- S8: POP R7 leaves the popped byte plus 1. -/
theorem test_pop_sp : stepGives (start #v[0, 0, 0, 0, 0, 0, 0, 0xF3] 0 [(0, 0x46), (1, 7), (0xF3, 0x10)])
    (fun t => t.sp = 0x11 ∧ t.pc = 2) = true := by decide
/-- S12: with 255 cells a POP at SP = 0xFE faults for its new SP. -/
theorem test_pop_above : stepGives { start #v[0, 0, 0, 0, 0, 0, 0, 0xFE] 0 [(0, 0x46)] with cfg := reference }
    (fun t => t.sp = 0xFE ∧ t.fault = ⟨.outOfBoundsAddress, 0, true, 0x46, 255, 0⟩) = true := by decide
/-- L2. -/
theorem test_ldi_sp : stepGives (start resetRegs 0 [(0, 0x82), (1, 7)]) (fun t => t.sp = 0 ∧ t.pc = 3) = true := by decide
/-- L9: the operand fetch check comes before the index check. -/
theorem test_ldi_off_end : stepGives (start resetRegs 254 [(254, 0x82), (255, 0x08)])
    (fun t => t.pc = 254 ∧ t.fault = ⟨.outOfBoundsAddress, 254, true, 0x82, 256, 0⟩) = true := by decide
/-- A9. -/
theorem test_add_wraps : stepGives (start #v[0, 0, 200, 100, 0, 0, 0, 0xF4] 0 [(0, 0xA0), (1, 2), (2, 3)])
    (fun t => t.reg 2 = 44 ∧ t.reg 3 = 100 ∧ t.pc = 3) = true := by decide
/-- A12: ADD into SP. -/
theorem test_add_sp : stepGives (start #v[0, 0x0C, 0, 0, 0, 0, 0, 0xF4] 0 [(0, 0xA0), (1, 7), (2, 1)])
    (fun t => t.sp = 0) = true := by decide
/-- A3. -/
theorem test_mul_wraps : stepGives (start #v[255, 255, 0, 0, 0, 0, 0, 0xF4] 0 [(0, 0xA2), (2, 1)])
    (fun t => t.reg 0 = 1 ∧ t.reg 1 = 255 ∧ t.pc = 3) = true := by decide
/-- A7: `a` is checked first. -/
theorem test_mul_index : stepGives (start resetRegs 0 [(0, 0xA2), (1, 9), (2, 8)])
    (fun t => t.fault.code = .invalidRegisterIndex ∧ t.fault.index = 9 ∧ t.fault.opcode = 0xA2) = true := by decide
/-- U5: an unknown opcode in the last cell. -/
theorem test_unknown : stepGives (start resetRegs 255 [(255, 0xFF)])
    (fun t => t.reports = [{ pc := 255, opcode := 0xFF }] ∧ t.pc = 256 ∧ t.runState = .running) = true := by decide
/-- B1. -/
theorem test_off_end : stepGives (start resetRegs 256 [])
    (fun t => t.runState = .faulted ∧ t.fault = ⟨.outOfBoundsAddress, 256, false, 0, 256, 0⟩) = true := by decide
/-- X1. -/
theorem test_stop : stepGives { State.reset with pc := 3, stopPending := some 0 }
    (fun t => t = { State.reset with pc := 3, runState := .stopped }) = true := by decide
/-- X2. -/
theorem test_resume : stepGives { State.reset with pc := 3, runState := .stopped, inputs := [some .resume] }
    (fun t => t = { State.reset with pc := 3 }) = true := by decide
/-- X3. -/
theorem test_halted_resume : stepGives { State.reset with runState := .halted, inputs := [some .resume] }
    (fun t => t.runState = .halted) = true := by decide
/-- X4: reset keeps memory. -/
theorem test_reset : stepGives { start #v[1, 0, 0, 0, 0, 0, 0, 0] 7 [(7, 0x45)] with
      runState := .faulted, out := [1], inputs := [some (.reset none)] }
    (fun t => t = { State.reset with mem := [(7, 0x45)] }) = true := by decide
/-- R96: memory is read out when the block is not RUNNING. -/
theorem test_debugRead : debugRead State.reset = none ∧
    (debugRead { start resetRegs 5 [(1, 9)] with runState := .stopped }).map (fun v => (v.pc, v.memory.take 3)) =
      some (5, [0, 9, 0]) := by decide

/-- The host's question of a table word: the first step after reset runs it. -/
theorem test_withFetchWord : stepGives (State.reset.withFetchWord 24 0x050382)
    (fun t => t.reg 3 = 5 ∧ t.pc = 3) = true := by decide

/-! ### Witnesses: the hypotheses of each statement can be met, clause by clause -/

theorem witness_DecodeOfEncode : Config.hw.Valid ∧ WellFormed Config.hw (.add 0xFF 0) = true ∧ reference.Valid ∧
    WellFormed reference (.mul 7 0xFF) = true := by decide
theorem witness_EncodeOfDecode : decode Config.hw [0x45#8, 7#8, 1#8] = .instr (.push 7#8) [1#8] := by decide
theorem witness_DispatcherMatchesWholeByte : Config.hw.Valid ∧ reference.Valid := by decide
theorem witness_OperandCountRule : Config.hw.Valid ∧ classify Config.hw 0x82 ≠ .unknown ∧
    [0#8].length < operandCount 0x82 ∧ operandCount 0x82 ≤ [0#8, 1#8].length ∧
    classify Config.hw 0x01 = .halt ∧ classify Config.hw 0xA0 = .alu .add := by decide
theorem witness_UnknownOpcodeCount : Config.hw.Valid ∧ Config.hw.addWired = true ∧ reference.Valid ∧
    reference.addWired = false := by decide
theorem witness_HighOpcodesUnknown : Config.hw.Valid ∧ 0xC0 ≤ (0xC0#8).toNat ∧ 0xC0 ≤ (0xFF#8).toNat := by decide

theorem start_atInstruction (regs : Vector Byte 8) (pc : Addr) (mem : Memory) : (start regs pc mem).AtInstruction :=
  ⟨rfl, rfl, rfl⟩

theorem start_valid (regs : Vector Byte 8) (pc : Addr) (mem : Memory) : (start regs pc mem).cfg.Valid :=
  test_config_hw_valid

/-- With no stop pending and no turn to come; and with a silent turn, a reset after it, and a stop pending. -/
theorem witness_RunsInstruction : (start resetRegs 0 []).RunsInstruction (start resetRegs 0 []) ∧
    State.RunsInstruction { State.reset with stopPending := some 3, inputs := [none, some (.reset none)] }
      { State.reset with stopPending := some 2, inputs := [some (.reset none)] } :=
  ⟨⟨rfl, .inr ⟨rfl, rfl⟩, rfl, rfl⟩, ⟨rfl, .inl rfl, rfl, rfl⟩⟩
theorem witness_StepRunsDecoded : (start resetRegs 0 [(0, 0x82), (1, 3)]).cfg.Valid ∧
    (start resetRegs 0 [(0, 0x82), (1, 3)]).AtInstruction ∧
    (∃ rest, decode Config.hw (start resetRegs 0 [(0, 0x82), (1, 3)]).codeAtPc = .instr (.ldi 3 0) rest) ∧
    decode Config.hw (start resetRegs 255 [(255, 0x01)]).codeAtPc = .instr .hlt [] :=
  ⟨start_valid _ _ _, start_atInstruction _ _ _, ⟨_, rfl⟩, by decide⟩
theorem witness_EngineTurn : State.reset.cfg.Valid ∧ State.reset.runState = .running ∧
    (State.reset.inputs = [] ∧ ([] : List (Option HostInput)) = []) ∧ State.reset.stopPending = none ∧
    ({ State.reset with stopPending := some 0 } : State).stopPending = some 0 ∧
    ({ State.reset with stopPending := some 1, inputs := [none, some .resume] } : State).inputs =
      none :: [some .resume] := by decide
theorem witness_OpcodeFetchBound : (start resetRegs 256 []).cfg.Valid ∧
    (start resetRegs 256 []).cfg.memSize ≤ (start resetRegs 256 []).pc.toNat :=
  ⟨start_valid _ _ _, by decide⟩
/-- `k` = 1 at the last cell, and `k` = 2 one below it. -/
theorem witness_OperandFetchBound : classify Config.hw ((start resetRegs 255 [(255, 0x82)]).mem.read 255) ≠ .unknown ∧
    1 ≤ operandCount ((start resetRegs 255 [(255, 0x82)]).mem.read 255) ∧ Config.hw.memSize ≤ 255 + 1 ∧
    (∀ j < 1, 255 + j < Config.hw.memSize) ∧
    2 ≤ operandCount ((start resetRegs 254 [(254, 0x82)]).mem.read 254) ∧ Config.hw.memSize ≤ 254 + 2 ∧
    (∀ j < 2, 254 + j < Config.hw.memSize) := by decide
theorem witness_UnknownOpcodeStep : (start resetRegs 255 []).runState = .running ∧
    (start resetRegs 255 []).pc.toNat < (start resetRegs 255 []).cfg.memSize ∧
    classify Config.hw ((start resetRegs 255 []).mem.read 255) = .unknown := by decide
theorem witness_LdiResult : (7#8).toNat < 8 := by decide
theorem witness_PrnResult : (0#8).toNat < 8 := by decide
/-- SP at 1 and at 255. -/
theorem witness_PushResult : 1 ≤ (start #v[0, 0, 0, 0, 0, 0, 0, 1] 0 []).regs[7].toNat ∧
    (start #v[0, 0, 0, 0, 0, 0, 0, 1] 0 []).regs[7].toNat - 1 < Config.hw.memSize ∧
    (start #v[0, 0, 0, 0, 0, 0, 0, 255] 0 []).regs[7].toNat - 1 < Config.hw.memSize := by decide
/-- SP at 254 for a register but R7; SP at 255 with the byte 254 there for R7. -/
theorem witness_PopResult : (6#8).toNat < 7 ∧ (start #v[0, 0, 0, 0, 0, 0, 0, 254] 0 []).regs[7].toNat + 1 < Config.hw.memSize ∧
    (7#8).toNat = 7 ∧ (start #v[0, 0, 0, 0, 0, 0, 0, 255] 0 [(255, 254)]).regs[7].toNat < Config.hw.memSize ∧
    ((start #v[0, 0, 0, 0, 0, 0, 0, 255] 0 [(255, 254)]).mem.read 255).toNat + 1 < Config.hw.memSize := by decide
theorem witness_MulResult : (7#8).toNat < 8 ∧ (0#8).toNat < 8 := by decide
theorem witness_AddResult : (7#8).toNat < 8 ∧ (7#8).toNat < 8 := by decide
theorem witness_IndexFault : 8 ≤ (8#8).toNat ∧ 8 ≤ (255#8).toNat ∧ ((7#8).toNat < 8 ∧ 8 ≤ (8#8).toNat) ∧
    ∃ t, exec (.ldi 7 255) State.reset = .next t := ⟨by decide, by decide, by decide, _, rfl⟩
/-- SP 0; and SP 255 with 254 cells. -/
theorem witness_PushStackFault : (start #v[0, 0, 0, 0, 0, 0, 0, 0] 0 []).regs[7] = 0 ∧
    smaller.memSize ≤ (start #v[0, 0, 0, 0, 0, 0, 0, 255] 0 []).regs[7].toNat - 1 := by decide
/-- SP out of range with 255 cells; the new SP 256 for R0 and for R7. -/
theorem witness_PopStackFault : reference.memSize ≤ (start #v[0, 0, 0, 0, 0, 0, 0, 255] 0 []).regs[7].toNat ∧
    Config.hw.memSize ≤ 256 ∧
    256 = (if (0#8).toNat = 7 then (start #v[0, 0, 0, 0, 0, 0, 0, 255] 0 []).mem.read 255 else 255#8).toNat + 1 ∧
    256 = (if (7#8).toNat = 7 then (start resetRegs 0 [(244, 255)]).mem.read 244 else 244#8).toNat + 1 := by decide
/-- One state for each clause: the PC at 256; an index of 8 and a literal outside memory; an index of 8 with SP 0;
a register number with SP 0. -/
theorem witness_FirstFailingCheck :
    (∃ t, instructionStep (start resetRegs 256 []) = .next t) ∧
    (Config.hw.memSize ≤ 254 + operandCount ((start resetRegs 254 [(254, 0x82), (255, 8)]).mem.read 254) ∧
      ∃ t, instructionStep (start resetRegs 254 [(254, 0x82), (255, 8)]) = .next t) ∧
    ((∃ rest, decode Config.hw (start #v[0, 0, 0, 0, 0, 0, 0, 0] 0 [(0, 0x45), (1, 8)]).codeAtPc = .instr (.push 8) rest) ∧
      RegisterForm (.push 8) = false ∧ ∃ t, instructionStep (start #v[0, 0, 0, 0, 0, 0, 0, 0] 0 [(0, 0x45), (1, 8)]) = .next t) ∧
    (∃ rest, decode Config.hw (start #v[0, 0, 0, 0, 0, 0, 0, 0] 0 [(0, 0x45), (1, 7)]).codeAtPc = .instr (.push 7) rest) ∧
    RegisterForm (.push 7) = true ∧
    ∃ t, instructionStep (start #v[0, 0, 0, 0, 0, 0, 0, 0] 0 [(0, 0x45), (1, 7)]) = .next t ∧ t.runState = .faulted :=
  ⟨⟨_, rfl⟩, ⟨by decide, _, rfl⟩, ⟨⟨_, rfl⟩, by decide, _, rfl⟩, ⟨_, rfl⟩, by decide, _, rfl, rfl⟩
theorem witness_LdiMulAddFrame : (∃ t, exec (.ldi 7 1) State.reset = .next t) ∧ (∃ t, exec (.mul 7 8) State.reset = .next t) ∧
    ∃ t, exec (.add 0 7) State.reset = .next t := ⟨⟨_, rfl⟩, ⟨_, rfl⟩, _, rfl⟩
theorem witness_PrnHltFrame : (∃ t, exec .hlt State.reset = .next t) ∧ (∃ t, exec (.prn 7) State.reset = .next t) ∧
    ∃ t, exec (.prn 8) State.reset = .next t := ⟨⟨_, rfl⟩, ⟨_, rfl⟩, _, rfl⟩
/-- The store of `PUSH R7` after reset goes to 0xF3; with SP 0 it faults. -/
theorem witness_PushFrame : State.reset.mem.wf ∧ pushAddress State.reset = 0xF3 ∧
    (∃ t, exec (.push 7) State.reset = .next t ∧ t.runState = .running) ∧
    ∃ t, exec (.push 0) (start #v[0, 0, 0, 0, 0, 0, 0, 0] 0 []) = .next t ∧ t.runState = .faulted :=
  ⟨by decide, by decide, ⟨_, rfl, rfl⟩, _, rfl, rfl⟩
theorem witness_PopFrame : (∃ t, exec (.pop 7) State.reset = .next t ∧ t.runState = .running) ∧
    ∃ t, exec (.pop 8) State.reset = .next t ∧ t.runState = .faulted := ⟨⟨_, rfl, rfl⟩, _, rfl, rfl⟩
/-- A fault before the opcode fetch, and one of an instruction with a stop pending and a turn to come. -/
theorem witness_FaultIsPrecise : (start resetRegs 256 []).cfg.Valid ∧ (start resetRegs 256 []).runState = .running ∧
    (∃ t, instructionStep (start resetRegs 256 []) = .next t ∧ t.runState = .faulted) ∧
    ∃ t, instructionStep { start resetRegs 0 [(0, 0x47), (1, 8)] with stopPending := some 0, inputs := [some .resume] } =
      .next t ∧ t.runState = .faulted :=
  ⟨start_valid _ _ _, rfl, ⟨_, rfl, rfl⟩, _, rfl, rfl⟩
/-- An instruction up to the last cell, an unknown opcode in it, and HLT. -/
theorem witness_PcAdvance : (∃ t, instructionStep (start resetRegs 253 [(253, 0xA2)]) = .next t ∧ t.runState = .running) ∧
    (∃ t, instructionStep (start resetRegs 255 []) = .next t ∧ t.runState = .running) ∧
    ∃ t, instructionStep (start resetRegs 255 [(255, 0x01)]) = .next t ∧ t.runState ≠ .running :=
  ⟨⟨_, rfl, rfl⟩, ⟨_, rfl, rfl⟩, _, rfl, by decide⟩
theorem reset_noReset : State.reset.NoReset := fun _ _ h => by cases h
theorem witness_ChannelsOnlyGrow : State.reset.NoReset ∧ ∃ t, step State.reset = .next t := ⟨reset_noReset, _, rfl⟩
theorem witness_OnlyPushWritesMemory : (start resetRegs 0 [(0, 0x45), (1, 7)]).mem.wf ∧
    (start resetRegs 0 [(0, 0x45), (1, 7)]).NoReset ∧
    ∃ t, step (start resetRegs 0 [(0, 0x45), (1, 7)]) = .next t ∧
      t.mem.read 0xF3 ≠ (start resetRegs 0 [(0, 0x45), (1, 7)]).mem.read 0xF3 :=
  ⟨by decide, fun _ _ h => (by cases h), _, rfl, by decide⟩
/-- All five ways. -/
theorem witness_RunStateChanges :
    (∃ t, step (start resetRegs 0 [(0, 0x01)]) = .next t ∧ t.runState = .halted) ∧
    (∃ t, step (start resetRegs 256 []) = .next t ∧ t.runState = .faulted) ∧
    (∃ t, step { State.reset with stopPending := some 0 } = .next t ∧ t.runState = .stopped) ∧
    (∃ t, step { State.reset with runState := .stopped, inputs := [some .resume] } = .next t ∧ t.runState = .running) ∧
    ∃ t, step { State.reset with runState := .faulted, inputs := [some (.reset none)] } = .next t ∧ t.runState = .running :=
  ⟨⟨_, rfl, rfl⟩, ⟨_, rfl, rfl⟩, ⟨_, rfl, rfl⟩, ⟨_, rfl, rfl⟩, _, rfl, rfl⟩
theorem witness_QuietStatesStay :
    ({ State.reset with runState := .halted, inputs := [some (.stopReq 3)] } : State).inputs = some (.stopReq 3) :: [] ∧
    (∀ image, (some (.stopReq 3) : Option HostInput) ≠ some (.reset image)) ∧
    ({ State.reset with runState := .stopped } : State).inputs = [] := ⟨rfl, fun _ h => (by cases h), rfl⟩
theorem witness_FaultRecordWriters :
    (∃ t, step (start resetRegs 256 []) = .next t ∧ t.fault ≠ (start resetRegs 256 []).fault) ∧
    ∃ t, step { State.reset with
        runState := .faulted
        fault := { FaultRecord.clear with code := .outOfBoundsAddress }
        inputs := [some (.reset none)] } = .next t ∧
      t.fault ≠ { FaultRecord.clear with code := .outOfBoundsAddress } := ⟨⟨_, rfl, by decide⟩, _, rfl, by decide⟩
/-- `k` = 0, where the block is still RUNNING; and `k` = 1 past an HLT. -/
theorem witness_StopIsTransparent :
    (∃ u : State, Sys2Proof.core.run 0 { State.reset with stopPending := none } = .next u ∧ u.runState = .running) ∧
    ∃ u : State, Sys2Proof.core.run 1 { start resetRegs 0 [(0, 0x01)] with stopPending := none } = .next u ∧
      u.runState ≠ .running := ⟨⟨_, rfl, rfl⟩, _, rfl, by decide⟩
theorem witness_StopRequestMove :
    ({ State.reset with inputs := [some (.stopReq 0)] } : State).inputs = some (.stopReq 0) :: [] ∧
    ({ State.reset with runState := .stopped, inputs := [some (.stopReq 0)] } : State).runState ≠ .running := by decide
theorem witness_ResumeMove :
    ({ State.reset with runState := .stopped, inputs := [some .resume] } : State).inputs = some .resume :: [] ∧
    State.reset.runState ≠ .stopped := by decide
theorem witness_ResetMove :
    ({ State.reset with runState := .halted, inputs := [some (.reset none)] } : State).inputs = some (.reset none) :: [] ∧
    ∃ t, step { State.reset with runState := .halted, inputs := [some (.reset none)] } = .next t ∧ t.runState ≠ .halted :=
  ⟨by decide, _, rfl, by decide⟩
/-- A machine of one cell, and its image. -/
theorem witness_BootWithImage : ({ Config.hw with memSize := 1 } : Config).Valid ∧
    [0x01#8].length = ({ Config.hw with memSize := 1 } : Config).memSize ∧
    ∃ t, step { State.reset with stopPending := some 1, inputs := [some (.reset none), none] } = .next t :=
  ⟨by decide, by decide, _, rfl⟩
theorem witness_WrongImageStops : [0x01#8].length ≠ Config.hw.memSize := by decide
/-- A state after reset with a program that stores. -/
theorem witness_StepKeepsInvariant : (start resetRegs 0 [(0, 0x45), (1, 7)]).Inv ∧
    ∃ t, step (start resetRegs 0 [(0, 0x45), (1, 7)]) = .next t :=
  ⟨⟨by decide, by decide, by decide, by decide,
    ⟨fun _ => ⟨by decide, rfl⟩, fun h => absurd rfl h, (by decide), (by decide), by decide⟩⟩, _, rfl⟩
theorem witness_ParametersConstant : ∃ t, step State.reset = .next t := ⟨_, rfl⟩
theorem witness_EveryRunEnds : State.reset.cfg.Valid ∧ State.reset.AtInstruction := ⟨by decide, rfl, rfl, rfl⟩
/-- SP at 1 and at 255. -/
theorem witness_PushThenPop : (6#8).toNat < 7 ∧ State.reset.mem.wf ∧
    1 ≤ (start #v[0, 0, 0, 0, 0, 0, 0, 1] 0 []).regs[7].toNat ∧
    (start #v[0, 0, 0, 0, 0, 0, 0, 255] 0 []).regs[7].toNat < Config.hw.memSize := by decide
theorem witness_UnsupportedNeverRaised : (7#8).toNat < 8 ∧ State.reset.fault.code ≠ .unsupportedOperation ∧
    ∃ t, step State.reset = .next t := ⟨by decide, by decide, _, rfl⟩
theorem witness_HostReads : State.reset.runState = .running ∧
    ({ State.reset with runState := .stopped } : State).runState ≠ .running := by decide
/-- SP at its last values: 1 for PUSH, 254 for POP of R0, 255 with the byte 254 there for POP of R7. -/
theorem witness_InstructionsComplete : RegisterForm .hlt = true ∧ RegisterForm (.ldi 7 255) = true ∧
    RegisterForm (.prn 7) = true ∧ RegisterForm (.mul 0 7) = true ∧ RegisterForm (.add 7 7) = true ∧
    (RegisterForm (.push 7) = true ∧ 1 ≤ (start #v[0, 0, 0, 0, 0, 0, 0, 1] 0 []).regs[7].toNat ∧
      (start #v[0, 0, 0, 0, 0, 0, 0, 1] 0 []).regs[7].toNat - 1 < Config.hw.memSize) ∧
    (RegisterForm (.pop 0) = true ∧ (start #v[0, 0, 0, 0, 0, 0, 0, 254] 0 []).regs[7].toNat + 1 < Config.hw.memSize) ∧
    RegisterForm (.pop 7) = true ∧ (start #v[0, 0, 0, 0, 0, 0, 0, 255] 0 [(255, 254)]).regs[7].toNat < Config.hw.memSize ∧
    ((start #v[0, 0, 0, 0, 0, 0, 0, 255] 0 [(255, 254)]).mem.read 255).toNat + 1 < Config.hw.memSize := by decide

end Sys2Proof.Tests
end

section
/-! What every step keeps: the parameters (00_scope.md R6), and the invariant of the reachable states. -/

namespace Sys2Proof.Machine

/-! ### The parameters -/

/-- No host input changes the parameters, a reset with an image included. -/
theorem hostMove_cfg {m : HostInput} {s t : State} (h : hostMove m s = .next t) : t.cfg = s.cfg := by
  rcases hostMove_cases h with ⟨-, rfl⟩ | ⟨image, -, -, rfl⟩ | ⟨k, -, rfl⟩ | ⟨-, rfl⟩
  · exact State.applyReset_cfg s
  · exact State.applyReset_cfg _
  · exact State.requestStop_cfg s k
  · exact State.resume_cfg s

/-- States that differ in the memory port alone have the same parameters. -/
theorem State.cfg_eq_of_erasePort_eq {s t : State} (h : t.erasePort = s.erasePort) : t.cfg = s.cfg := by
  simpa using congrArg State.cfg h

/-- No instruction step changes the parameters. -/
theorem instructionStep_cfg {s t : State} (hc : s.cfg.Valid) (h : instructionStep s = .next t) : t.cfg = s.cfg := by
  rcases instructionStep_cases hc h with
    ⟨-, -, halted⟩ | ⟨-, -, skipped⟩ | ⟨-, -, -, -, -, cfg, -⟩ | ⟨c, op, u, port, rfl, -⟩
  · exact (State.cfg_eq_of_erasePort_eq halted).trans (State.setRun_cfg s .halted)
  · exact (State.cfg_eq_of_erasePort_eq skipped).trans (State.skipUnknown_cfg s _)
  · exact cfg
  · exact (State.raise_cfg u c op).trans (State.cfg_eq_of_erasePort_eq port)

/-- Settles O44, from the host's moves and the instruction step. -/
theorem parametersConstant : Obligations.ParametersConstant := by
  intro s t h
  obtain ⟨hc, ⟨m, later, -, hm⟩ | ⟨-, later, -, ⟨-, rfl⟩ | ⟨-, -, rfl⟩ | ⟨-, p, -, hi⟩⟩⟩ := step_cases h
  · exact hostMove_cfg (s := { s with inputs := later }) hm
  · rfl
  · rfl
  · exact instructionStep_cfg (s := { s with inputs := later, stopPending := p }) hc hi

/-! ### The fault record -/

/-- Outside FAULTED a record that fits is clear. -/
theorem State.FaultRecordFits.eq_clear {s : State} (h : s.FaultRecordFits) (hr : s.runState ≠ .faulted) :
    s.fault = .clear := by
  by_cases hn : s.fault.code = .none
  · exact (h.none hn).2
  · exact absurd (h.taken hn).1 hr

/-- The clear record fits every run state but FAULTED. -/
theorem State.faultRecordFits_of_clear {s : State} (hf : s.fault = .clear) (hr : s.runState ≠ .faulted) :
    s.FaultRecordFits where
  none _ := ⟨hr, hf⟩
  taken h := absurd (by rw [hf]; rfl) h
  address h := by rw [hf] at h; cases h
  index h := by rw [hf] at h; cases h
  closed h := by rw [hf] at h; cases h

/-- The record of an index fault fits: it names an index of 8 or more and the opcode byte at the PC (R77, R79). -/
theorem State.faultRecordFits_raise_invalidIndex (s : State) {r : Byte} (hr : 8 ≤ r.toNat) :
    (s.raise (.invalidIndex r) (some (s.load s.pc.toNat))).FaultRecordFits where
  none h := by cases h
  taken _ := ⟨rfl, rfl, rfl⟩
  address h := by cases h
  index _ := ⟨rfl, rfl, hr⟩
  closed h := by cases h

/-- The record of an address fault fits, when the address lies outside memory and the opcode byte is the one at the PC,
or was not fetched and the address is the PC's (R76, R79). -/
theorem State.faultRecordFits_raise_outOfBounds {s : State} {a : Int} {op : Option Byte}
    (hop : op = none ∧ a = s.pc.toNat ∨ op = some (s.load s.pc.toNat))
    (hout : a = -1 ∨ (s.cfg.memSize : Int) ≤ a) (hle : a ≤ 256) :
    (s.raise (.outOfBounds a) op).FaultRecordFits := by
  have haddr : (BitVec.ofInt 10 a).toInt = a := toInt_ofInt_addr a (by omega) (by omega)
  exact
    { none := fun h => by cases h
      taken := fun _ => ⟨rfl, rfl, by obtain ⟨rfl, -⟩ | rfl := hop <;> rfl⟩
      address := fun _ => ⟨rfl, haddr.symm ▸ hout, haddr.symm ▸ hle, fun hno => by
        obtain ⟨-, hpc⟩ | rfl := hop
        · exact haddr.trans hpc
        · cases hno⟩
      index := fun h => by cases h
      closed := fun h => by cases h }

/-! ### The invariant -/

/-- The invariant reads the parameters, memory, the PC, the run state and the fault record alone. -/
theorem State.Inv.congr {s t : State} (h : s.Inv) (hcfg : t.cfg = s.cfg) (hmem : t.mem = s.mem) (hpc : t.pc = s.pc)
    (hrun : t.runState = s.runState) (hfault : t.fault = s.fault) : t.Inv := by
  obtain ⟨params, memory, cells, pc, none, taken, address, index, closed⟩ := h
  constructor
  case fault => constructor <;> simpa only [hcfg, hmem, hpc, hrun, hfault]
  all_goals simpa only [hcfg, hmem, hpc]

/-- The invariant does not read the memory port. -/
theorem State.Inv.of_erasePort_eq {s t : State} (h : s.Inv) (e : t.erasePort = s.erasePort) : t.Inv := by
  obtain ⟨-, hpc, hrun, hfault, hmem, -, -, -, -, hcfg⟩ := State.fields_of_erasePort_eq e
  exact h.congr hcfg hmem hpc hrun hfault

/-- The invariant does not read the host's turns or a pending stop. -/
theorem State.Inv.with_turns {s : State} (h : s.Inv) (later : List (Option HostInput)) (p : Option Nat) :
    State.Inv { s with inputs := later, stopPending := p } :=
  h.congr rfl rfl rfl rfl rfl

/-- Between states that are not FAULTED a step keeps the invariant when it keeps the parameters and the record, and
leaves memory and the PC in their bounds. -/
theorem State.Inv.of_not_faulted {s t : State} (h : s.Inv) (hs : s.runState ≠ .faulted) (ht : t.runState ≠ .faulted)
    (hcfg : t.cfg = s.cfg) (hfault : t.fault = s.fault) (hwf : t.mem.wf) (hcells : ∀ c ∈ t.mem, c.1 < s.cfg.memSize)
    (hpc : t.pc.toNat ≤ s.cfg.memSize) : t.Inv where
  params := hcfg ▸ h.params
  memory := hwf
  cells := hcfg ▸ hcells
  pc := hcfg ▸ hpc
  fault := State.faultRecordFits_of_clear (hfault.trans (h.fault.eq_clear hs)) ht

/-- A change of the run state alone keeps the invariant, unless it leaves or enters FAULTED. -/
theorem State.Inv.setRun {s : State} (h : s.Inv) (hs : s.runState ≠ .faulted) {r : RunState} (hr : r ≠ .faulted) :
    (s.setRun r).Inv :=
  h.of_not_faulted hs hr rfl rfl h.memory h.cells h.pc

/-- A fault whose record fits keeps the invariant: nothing else of the state that it reads changes (R80). -/
theorem State.Inv.raise {s : State} (h : s.Inv) {c : FaultCause} {op : Option Byte}
    (hf : (s.raise c op).FaultRecordFits) : (s.raise c op).Inv :=
  ⟨h.params, h.memory, h.cells, h.pc, hf⟩

/-- Reset keeps the invariant, whatever the PC, the run state and the record were (R90). -/
theorem State.inv_applyReset {s : State} (params : s.cfg.Valid) (memory : s.mem.wf)
    (cells : ∀ c ∈ s.mem, c.1 < s.cfg.memSize) : s.applyReset.Inv where
  params := params
  memory := memory
  cells := cells
  pc := Nat.zero_le _
  fault := State.faultRecordFits_of_clear rfl (by simp)

/-- `resume` keeps the invariant: STOPPED is not FAULTED, so its record is clear. -/
theorem State.Inv.resume {s : State} (h : s.Inv) : s.resume.Inv := by
  by_cases hs : s.runState = .stopped
  · rw [State.resume_stopped s hs]
    exact h.setRun (by simp [hs]) (by simp)
  · rwa [State.resume_not_stopped s hs]

/-- Every host input that has a next state keeps the invariant. -/
theorem hostMove_inv {m : HostInput} {s t : State} (h : s.Inv) (hm : hostMove m s = .next t) : t.Inv := by
  rcases hostMove_cases hm with ⟨-, rfl⟩ | ⟨image, -, hlen, rfl⟩ | ⟨k, -, rfl⟩ | ⟨-, rfl⟩
  · exact State.inv_applyReset h.params h.memory h.cells
  · refine State.inv_applyReset h.params (Memory.ofBytes_wf 0 image) fun c hc => ?_
    have := (Memory.mem_ofBytes hc).2
    simp only at *; omega
  · exact h.congr (by simp) (by simp) (by simp) (by simp) (by simp)
  · exact h.resume

/-- The PC advances as an exact number while the sum fits its 9 bits (R17, R58). -/
theorem toNat_pc_add {p : Addr} {n : Nat} (h : p.toNat + n < 512) : (p + BitVec.ofNat 9 n).toNat = p.toNat + n := by
  rw [BitVec.toNat_add, BitVec.toNat_ofNat]
  omega

/-- An instruction step from RUNNING keeps the invariant. -/
theorem instructionStep_inv {s t : State} (h : s.Inv) (hr : s.runState = .running) (hi : instructionStep s = .next t) :
    t.Inv := by
  have hs : s.runState ≠ .faulted := by simp [hr]
  have hsize : s.cfg.memSize ≤ 256 := h.params.1.2
  have advanced : ∀ n, s.pc.toNat + n ≤ s.cfg.memSize → (s.pc + BitVec.ofNat 9 n).toNat ≤ s.cfg.memSize := by
    intro n hn
    rwa [toNat_pc_add (by omega)]
  rcases instructionStep_cases h.params hi with
    ⟨-, -, halted⟩ | ⟨hp, -, skipped⟩ | ⟨-, hp, run, fault, pc, cfg, -, -, -, -, mem⟩ | ⟨c, op, u, port, rfl, cause⟩
  · exact (h.setRun hs (by simp)).of_erasePort_eq halted
  · refine State.Inv.of_erasePort_eq ?_ skipped
    exact h.of_not_faulted hs hs rfl rfl h.memory h.cells (advanced 1 (by omega))
  · have hpc : t.pc.toNat ≤ s.cfg.memSize := pc ▸ advanced _ (by omega)
    rcases mem with mem | ⟨a, v, -, -, ha, mem⟩
    · exact h.of_not_faulted hs (run ▸ hs) cfg fault (mem ▸ h.memory) (mem ▸ h.cells) hpc
    · exact h.of_not_faulted hs (run ▸ hs) cfg fault (mem ▸ Memory.write_wf h.memory a v)
        (mem ▸ Memory.write_cells h.cells ha v) hpc
  · obtain ⟨-, upc, -, -, umem, -, -, -, -, ucfg⟩ := State.fields_of_erasePort_eq port
    have hload : u.load u.pc.toNat = s.load s.pc.toNat := by rw [State.load_congr umem, upc]
    refine (h.of_erasePort_eq port).raise ?_
    rw [← hload, ← upc, ← ucfg] at cause
    rcases cause with ⟨rfl, hp, rfl⟩ | ⟨rfl, -, ⟨r, rfl, hr⟩ | ⟨a, rfl, hout, hle⟩⟩
    · have := h.pc
      exact State.faultRecordFits_raise_outOfBounds (.inl ⟨rfl, rfl⟩) (.inr (by omega)) (by rw [upc]; omega)
    · exact State.faultRecordFits_raise_invalidIndex u hr
    · exact State.faultRecordFits_raise_outOfBounds (.inr rfl) hout hle

/-- Settles O43, from the host's moves, the stop and the instruction step. -/
theorem stepKeepsInvariant : Obligations.StepKeepsInvariant := by
  intro s t h hstep
  obtain ⟨-, ⟨m, later, -, hm⟩ | ⟨-, later, -, ⟨-, rfl⟩ | ⟨hr, -, rfl⟩ | ⟨hr, p, -, hi⟩⟩⟩ := step_cases hstep
  · exact hostMove_inv (h.with_turns later s.stopPending) hm
  · exact h.with_turns later s.stopPending
  · exact (h.setRun (by simp [hr]) (r := .stopped) (by simp)).with_turns later none
  · exact instructionStep_inv (h.with_turns later p) hr hi

end Sys2Proof.Machine
end

section
/-! The state of the block (10_state.md): its values after reset, what the host reads out of it, and which steps write
the run state, the fault record and the two channels. -/

namespace Sys2Proof.Machine

/-! ### The state after reset -/

/-- Settles O41: the values of R24 are those `State.reset` is written with. -/
theorem resetValues : Obligations.ResetValues := rfl

/-- Settles O42: the reset state is what a reset makes of itself, and a reset leads to the invariant. -/
theorem resetMeetsInvariant : Obligations.ResetMeetsInvariant := by
  have params : State.reset.cfg.Valid := by decide
  have cells : ∀ c ∈ State.reset.mem, c.1 < State.reset.cfg.memSize := fun _ hc => absurd hc List.not_mem_nil
  exact State.inv_applyReset params State.reset_mem_wf cells

/-! ### What the host reads out -/

/-- In RUNNING the debug channel shows nothing (R25). -/
theorem debugRead_running {s : State} (h : s.runState = .running) : debugRead s = none := by
  simp [debugRead, h]

/-- Outside RUNNING the debug channel shows the registers, the PC and every cell (R25). -/
theorem debugRead_not_running {s : State} (h : s.runState ≠ .running) :
    debugRead s = some { regs := s.regs, pc := s.pc, memory := (List.range s.cfg.memSize).map s.mem.read } := by
  cases hr : s.runState with
  | running => exact absurd hr h
  | halted => simp [debugRead, hr]
  | faulted => simp [debugRead, hr]
  | stopped => simp [debugRead, hr]

/-- The state channel shows the encoding of the run state (R16). -/
theorem readState_eq_code {s : State} {r : RunState} (h : s.runState = r) : readState s = r.code :=
  congrArg RunState.code h

/-- Settles O48. -/
theorem hostReads : Obligations.HostReads := by
  intro s
  refine ⟨fun h => ⟨debugRead_running h, readState_eq_code h⟩,
    fun h => ⟨_, debugRead_not_running h, rfl, rfl, ?_, fun a ha => ?_⟩,
    readState_eq_code, readState_eq_code, readState_eq_code, rfl, rfl, rfl⟩
  · simp
  · simp [ha]

/-! ### The host's turn -/

/-- At a turn at which the host gives an input, the step is that input's move. -/
theorem step_of_host_turn {s : State} {m : HostInput} {later : List (Option HostInput)} (hc : s.cfg.Valid)
    (hi : s.inputs = some m :: later) : step s = hostMove m { s with inputs := later } := by
  simp [step, hc, nextTurn, hi]

/-- A turn at which the host gives nothing is no input's turn. -/
theorem inputs_ne_of_silent {s : State} {later : List (Option HostInput)}
    (h : s.inputs = none :: later ∨ s.inputs = [] ∧ later = []) (m : HostInput) (later' : List (Option HostInput)) :
    s.inputs ≠ some m :: later' := by
  rcases h with h | ⟨h, -⟩ <;> simp [h]

/-- A reset that has a next state is `applyReset`, over memory as it was or that of an image (R90, R91). -/
theorem hostMove_reset_cases {image : Option (List Byte)} {s t : State} (h : hostMove (.reset image) s = .next t) :
    ∃ mem, t = { s with mem := mem }.applyReset := by
  rcases hostMove_cases h with ⟨-, rfl⟩ | ⟨bytes, -, -, rfl⟩ | ⟨k, hm, -⟩ | ⟨hm, -⟩
  · exact ⟨s.mem, rfl⟩
  · exact ⟨Memory.ofBytes 0 bytes, rfl⟩
  · cases hm
  · cases hm

/-- After a reset R7 is `SP_RESET` and every other register 0 (R24). -/
theorem State.applyReset_reg (s : State) (j : RegIdx) : s.applyReset.reg j = if j = 7 then 0xF4#8 else 0 := by
  have values : ∀ i : RegIdx, State.reset.reg i = if i = 7 then 0xF4#8 else 0 := by decide
  exact values j

/-- Settles O39. -/
theorem bootWithImage : Obligations.BootWithImage := by
  constructor
  · intro s image later hc hi hlen
    have moved : step s = .next ({ s with inputs := later, mem := Memory.ofBytes 0 image } : State).applyReset := by
      rw [step_of_host_turn hc hi]
      simp [hostMove, hlen]
    refine ⟨_, moved, State.applyReset_reg _, rfl, rfl, rfl, rfl, rfl, rfl, fun a ha => ?_,
      Memory.ofBytes_wf 0 image, fun c hcell => ?_⟩
    · simpa using Memory.read_ofBytes 0 a image ha
    · have := (Memory.mem_ofBytes hcell).2
      omega
  · intro s t image later hi h
    rw [step_of_host_turn (step_cases h).1 hi] at h
    obtain ⟨mem, rfl⟩ := hostMove_reset_cases h
    exact ⟨rfl, rfl, rfl⟩

/-! ### The run state -/

/-- A host input makes the block RUNNING by a reset, or by a resume from STOPPED, or keeps the run state. -/
theorem hostMove_runState {m : HostInput} {s t : State} (h : hostMove m s = .next t) :
    ((∃ image, m = .reset image) ∧ t.runState = .running) ∨
    (m = .resume ∧ s.runState = .stopped ∧ t.runState = .running) ∨ t.runState = s.runState := by
  rcases hostMove_cases h with ⟨rfl, rfl⟩ | ⟨image, rfl, -, rfl⟩ | ⟨k, rfl, rfl⟩ | ⟨rfl, rfl⟩
  · exact .inl ⟨⟨none, rfl⟩, rfl⟩
  · exact .inl ⟨⟨some image, rfl⟩, rfl⟩
  · exact .inr (.inr (s.requestStop_runState k))
  · by_cases hs : s.runState = .stopped
    · exact .inr (.inl ⟨rfl, hs, by rw [s.resume_stopped hs, State.setRun_runState]⟩)
    · exact .inr (.inr (by rw [s.resume_not_stopped hs]))

/-- An instruction step halts by HLT at the PC, or faults, or keeps the run state. -/
theorem instructionStep_runState {s t : State} (hc : s.cfg.Valid) (h : instructionStep s = .next t) :
    (t.runState = .halted ∧ s.pc.toNat < s.cfg.memSize ∧ s.mem.read s.pc.toNat = opcHlt) ∨
    t.runState = .faulted ∨ t.runState = s.runState := by
  rcases instructionStep_cases hc h with
    ⟨hp, hop, halted⟩ | ⟨-, -, skipped⟩ | ⟨-, -, run, -⟩ | ⟨c, op, u, -, rfl, -⟩
  · exact .inl ⟨by simpa using congrArg State.runState halted, hp, hop⟩
  · exact .inr (.inr (by simpa using congrArg State.runState skipped))
  · exact .inr (.inr run)
  · exact .inr (.inl rfl)

/-- Settles O32, from the host's moves, the stop and the instruction step. -/
theorem runStateChanges : Obligations.RunStateChanges := by
  intro s t h hne
  obtain ⟨hc, ⟨m, later, hi, hm⟩ | ⟨-, later, hsilent, ⟨-, rfl⟩ | ⟨hr, hp, rfl⟩ | ⟨hr, p, -, hstep⟩⟩⟩ := step_cases h
  · rcases hostMove_runState hm with ⟨⟨image, rfl⟩, ht⟩ | ⟨rfl, hs, ht⟩ | same
    · exact .inr (.inr (.inr (.inr ⟨ht, image, later, hi⟩)))
    · exact .inr (.inr (.inr (.inl ⟨hs, ht, later, hi⟩)))
    · exact absurd same hne
  · exact absurd rfl hne
  · exact .inr (.inr (.inl ⟨hr, rfl, hp, inputs_ne_of_silent hsilent⟩))
  · rcases instructionStep_runState (s := { s with inputs := later, stopPending := p }) hc hstep with
      ⟨ht, hpc, hop⟩ | ht | same
    · exact .inl ⟨hr, ht, hpc, hop, inputs_ne_of_silent hsilent⟩
    · exact .inr (.inl ⟨hr, ht, inputs_ne_of_silent hsilent⟩)
    · exact absurd same hne

/-! ### The fault record -/

/-- A host input clears the fault record by a reset, or keeps it. -/
theorem hostMove_fault {m : HostInput} {s t : State} (h : hostMove m s = .next t) :
    ((∃ image, m = .reset image) ∧ t.fault = .clear) ∨ t.fault = s.fault := by
  rcases hostMove_cases h with ⟨rfl, rfl⟩ | ⟨image, rfl, -, rfl⟩ | ⟨k, rfl, rfl⟩ | ⟨rfl, rfl⟩
  · exact .inl ⟨⟨none, rfl⟩, rfl⟩
  · exact .inl ⟨⟨some image, rfl⟩, rfl⟩
  · exact .inr (s.requestStop_fault k)
  · exact .inr s.resume_fault

/-- An instruction step that does not fault keeps the fault record. -/
theorem instructionStep_fault {s t : State} (hc : s.cfg.Valid) (h : instructionStep s = .next t) :
    t.runState = .faulted ∨ t.fault = s.fault := by
  rcases instructionStep_cases hc h with
    ⟨-, -, halted⟩ | ⟨-, -, skipped⟩ | ⟨-, -, -, fault, -⟩ | ⟨c, op, u, -, rfl, -⟩
  · exact .inr (by simpa using congrArg State.fault halted)
  · exact .inr (by simpa using congrArg State.fault skipped)
  · exact .inr fault
  · exact .inl rfl

/-- Settles O34, from the host's moves and the instruction step. -/
theorem faultRecordWriters : Obligations.FaultRecordWriters := by
  intro s t h hne
  obtain ⟨hc, ⟨m, later, hi, hm⟩ | ⟨-, later, -, ⟨-, rfl⟩ | ⟨-, -, rfl⟩ | ⟨hr, p, -, hstep⟩⟩⟩ := step_cases h
  · rcases hostMove_fault hm with ⟨⟨image, rfl⟩, ht⟩ | same
    · exact .inr ⟨ht, image, later, hi⟩
    · exact absurd same hne
  · exact absurd rfl hne
  · exact absurd rfl hne
  · rcases instructionStep_fault (s := { s with inputs := later, stopPending := p }) hc hstep with ht | same
    · exact .inl ⟨hr, ht⟩
    · exact absurd same hne

/-! ### The channels -/

/-- The channels of `t` are those of `s` with at most one event appended in all. -/
def State.ChannelsGrowTo (s t : State) : Prop :=
  ∃ bytes reps, t.out = s.out ++ bytes ∧ t.reports = s.reports ++ reps ∧ bytes.length + reps.length ≤ 1

/-- No event. -/
theorem State.channelsGrowTo_of_eq {s t : State} (hout : t.out = s.out) (hreps : t.reports = s.reports) :
    s.ChannelsGrowTo t :=
  ⟨[], [], by simpa using hout, by simpa using hreps, by simp⟩

/-- One output byte. -/
theorem State.channelsGrowTo_of_out {s t : State} {v : Byte} (hout : t.out = s.out ++ [v])
    (hreps : t.reports = s.reports) : s.ChannelsGrowTo t :=
  ⟨[v], [], hout, by simpa using hreps, by simp⟩

/-- One report. -/
theorem State.channelsGrowTo_of_report {s t : State} {r : Report} (hout : t.out = s.out)
    (hreps : t.reports = s.reports ++ [r]) : s.ChannelsGrowTo t :=
  ⟨[], [r], by simpa using hout, hreps, by simp⟩

/-- A host input that is no reset keeps both channels (R96). -/
theorem hostMove_channels {m : HostInput} {s t : State} (hno : ∀ image, m ≠ .reset image)
    (h : hostMove m s = .next t) : t.out = s.out ∧ t.reports = s.reports := by
  rcases hostMove_cases h with ⟨rfl, -⟩ | ⟨image, rfl, -, -⟩ | ⟨k, -, rfl⟩ | ⟨-, rfl⟩
  · exact absurd rfl (hno none)
  · exact absurd rfl (hno (some image))
  · exact ⟨s.requestStop_out k, s.requestStop_reports k⟩
  · exact ⟨s.resume_out, s.resume_reports⟩

/-- An instruction step appends at most one event: the byte of PRN, or the report of an unknown opcode. -/
theorem instructionStep_channels {s t : State} (hc : s.cfg.Valid) (h : instructionStep s = .next t) :
    s.ChannelsGrowTo t := by
  rcases instructionStep_cases hc h with
    ⟨-, -, halted⟩ | ⟨-, -, skipped⟩ | ⟨-, -, -, -, -, -, -, -, reports, out, -⟩ | ⟨c, op, u, port, rfl, -⟩
  · obtain ⟨-, -, -, -, -, out, reports, -⟩ := State.fields_of_erasePort_eq halted
    exact State.channelsGrowTo_of_eq out reports
  · obtain ⟨-, -, -, -, -, out, reports, -⟩ := State.fields_of_erasePort_eq skipped
    exact State.channelsGrowTo_of_report out reports
  · rcases out with out | ⟨v, out⟩
    · exact State.channelsGrowTo_of_eq out reports
    · exact State.channelsGrowTo_of_out out reports
  · obtain ⟨-, -, -, -, -, out, reports, -⟩ := State.fields_of_erasePort_eq port
    exact State.channelsGrowTo_of_eq out reports

/-- Settles O30, from the host's moves and the instruction step. -/
theorem channelsOnlyGrow : Obligations.ChannelsOnlyGrow := by
  intro s t hno h
  obtain ⟨hc, ⟨m, later, hi, hm⟩ | ⟨-, later, -, ⟨-, rfl⟩ | ⟨-, -, rfl⟩ | ⟨-, p, -, hstep⟩⟩⟩ := step_cases h
  · have notReset : ∀ image, m ≠ .reset image := fun image e => hno image later (e ▸ hi)
    obtain ⟨out, reports⟩ := hostMove_channels notReset hm
    exact State.channelsGrowTo_of_eq out reports
  · exact State.channelsGrowTo_of_eq rfl rfl
  · exact State.channelsGrowTo_of_eq rfl rfl
  · exact instructionStep_channels (s := { s with inputs := later, stopPending := p }) hc hstep

end Sys2Proof.Machine
end

section
/-! Memory and the frames of the instructions (10_state.md R23, 41_alu.md, 42_control.md): what each instruction leaves
unchanged, and that PUSH alone writes memory. -/

namespace Sys2Proof.Machine

/-! ### What a fault leaves unchanged -/

/-- A fault makes FAULTED and keeps all else but the record and the memory port (R80). -/
theorem State.Raises.frame {s t : State} {op : Byte} {c : FaultCause} (h : s.Raises op c t) :
    t.runState = .faulted ∧ t.regs = s.regs ∧ t.pc = s.pc ∧ t.mem = s.mem ∧ t.out = s.out ∧ t.reports = s.reports ∧
      t.stopPending = s.stopPending ∧ t.inputs = s.inputs ∧ t.cfg = s.cfg := by
  obtain ⟨u, port, rfl⟩ := h
  obtain ⟨regs, pc, -, -, mem, out, reports, stop, inputs, cfg⟩ := State.fields_of_erasePort_eq port
  exact ⟨rfl, regs, pc, mem, out, reports, stop, inputs, cfg⟩

/-! ### LDI, MUL and ADD -/

/-- LDI, MUL and ADD write their first operand's register and advance the PC by 3, or take a fault. -/
theorem exec_ldi_mul_add_cases {dest other : Byte} {i : Instr} {s t : State}
    (hi : i = .ldi dest other ∨ i = .mul dest other ∨ i = .add dest other) (h : exec i s = .next t) :
    (∃ (hd : dest.toNat < 8) (v : Byte), t = (s.setReg ⟨dest.toNat, hd⟩ v).advance 3) ∨ ∃ op c, s.Raises op c t := by
  rcases hi with rfl | rfl | rfl
  · rcases execLdi_cases h with ⟨hd, rfl⟩ | ⟨-, rfl⟩
    · exact .inl ⟨hd, _, rfl⟩
    · exact .inr ⟨_, _, s.raise_raises _ _⟩
  · rcases execMul_cases h with ⟨hd, -, rfl⟩ | ⟨-, rfl⟩ | ⟨-, -, rfl⟩
    · exact .inl ⟨hd, _, rfl⟩
    · exact .inr ⟨_, _, s.raise_raises _ _⟩
    · exact .inr ⟨_, _, s.raise_raises _ _⟩
  · rcases execAdd_cases h with ⟨hd, -, rfl⟩ | ⟨-, rfl⟩ | ⟨-, -, rfl⟩
    · exact .inl ⟨hd, _, rfl⟩
    · exact .inr ⟨_, _, s.raise_raises _ _⟩
    · exact .inr ⟨_, _, s.raise_raises _ _⟩

/-- Settles O24. -/
theorem ldiMulAddFrame : Obligations.LdiMulAddFrame := by
  intro dest other i s t hi h
  rcases exec_ldi_mul_add_cases hi h with ⟨hd, v, rfl⟩ | ⟨op, c, raised⟩
  · have others : ∀ j : RegIdx, j.val ≠ dest.toNat → (s.setReg ⟨dest.toNat, hd⟩ v).reg j = s.reg j := fun j hj =>
      s.setReg_reg_ne v fun e => hj (congrArg Fin.val e).symm
    exact ⟨others, fun _ => rfl, rfl, rfl, rfl, rfl, rfl, .inl ⟨rfl, rfl⟩⟩
  · obtain ⟨run, regs, pc, mem, out, reports, stop, inputs, cfg⟩ := raised.frame
    exact ⟨fun j _ => State.reg_congr regs j, State.load_congr mem, out, reports, stop, inputs, cfg,
      .inr ⟨run, regs, pc⟩⟩

/-! ### PRN and HLT -/

/-- Settles O25. -/
theorem prnHltFrame : Obligations.PrnHltFrame := by
  rintro i s t (rfl | ⟨r, rfl⟩) h
  · obtain rfl := execHlt_cases h
    exact ⟨fun _ => rfl, fun _ => rfl, rfl, rfl, rfl, rfl, fun _ => ⟨rfl, rfl, rfl, rfl⟩, fun hne => absurd rfl hne⟩
  · rcases execPrn_cases h with ⟨hr, rfl⟩ | ⟨-, rfl⟩
    · exact ⟨fun _ => rfl, fun _ => rfl, rfl, rfl, rfl, rfl, nofun, fun _ => .inl ⟨rfl, rfl, _, rfl⟩⟩
    · exact ⟨fun _ => rfl, fun _ => rfl, rfl, rfl, rfl, rfl, nofun, fun _ => .inr ⟨rfl, rfl, rfl⟩⟩

/-! ### PUSH -/

/-- PUSH writes SP and stores the register it names, as it then stands, at SP - 1; or it takes a fault. -/
theorem exec_push_cases {r : Byte} {s t : State} (h : exec (.push r) s = .next t) :
    (∃ (hr : r.toNat < 8) (a : Nat) (sp : Byte), pushAddress s = a ∧
        t = ((s.setReg spIndex sp).store a ((s.setReg spIndex sp).reg ⟨r.toNat, hr⟩)).advance 2) ∨
      ∃ op c, s.Raises op c t := by
  rcases execPush_cases h with ⟨hr, a, ha, -, rfl⟩ | ⟨-, rfl⟩ | ⟨-, -, rfl⟩
  · exact .inl ⟨hr, a, _, ha, rfl⟩
  · exact .inr ⟨_, _, s.raise_raises _ _⟩
  · exact .inr ⟨_, _, s.raise_raises _ _⟩

/-- Settles O26, from the read after a write. -/
theorem pushFrame : Obligations.PushFrame := by
  intro r s t hwf h
  rcases exec_push_cases h with ⟨hr, a, sp, ha, rfl⟩ | ⟨op, c, raised⟩
  · have others : ∀ j : RegIdx, j ≠ 7 → (s.setReg spIndex sp).reg j = s.reg j := fun j hj =>
      s.setReg_reg_ne sp (Ne.symm hj)
    have elsewhere : ∀ (v : Byte) (b : Nat), (b : Int) ≠ pushAddress s → (s.mem.write a v).read b = s.mem.read b :=
      fun v b hb => by rw [Memory.read_write hwf, if_neg (by omega)]
    have stored : ∀ (v : Byte) (b : Nat), (b : Int) = pushAddress s → (s.mem.write a v).read b = v :=
      fun v b hb => by rw [Memory.read_write hwf, if_pos (by omega)]
    exact ⟨others, elsewhere _, rfl, rfl, rfl, rfl, rfl, .inl ⟨rfl, rfl, fun b hb _ => stored _ b hb⟩⟩
  · obtain ⟨run, regs, pc, mem, out, reports, stop, inputs, cfg⟩ := raised.frame
    exact ⟨fun j _ => State.reg_congr regs j, fun b _ => State.load_congr mem b, out, reports, stop, inputs, cfg,
      .inr ⟨run, regs, pc, State.load_congr mem⟩⟩

/-! ### POP -/

/-- POP writes the register it names, then SP; or it takes a fault. -/
theorem exec_pop_cases {r : Byte} {s t : State} (h : exec (.pop r) s = .next t) :
    (∃ (hr : r.toNat < 8) (v sp : Byte),
        t = (((s.afterRead s.sp.toNat).setReg ⟨r.toNat, hr⟩ v).setReg spIndex sp).advance 2) ∨
      ∃ op c, s.Raises op c t := by
  rcases execPop_cases h with ⟨hr, n, -, -, -, rfl⟩ | ⟨-, rfl⟩ | ⟨-, -, rfl⟩ | ⟨hr, -, -, rfl⟩
  · exact .inl ⟨hr, _, _, rfl⟩
  · exact .inr ⟨_, _, s.raise_raises _ _⟩
  · exact .inr ⟨_, _, s.raise_raises _ _⟩
  · exact .inr ⟨_, _, _, s.afterRead_erasePort _, rfl⟩

/-- Settles O27. -/
theorem popFrame : Obligations.PopFrame := by
  intro r s t h
  rcases exec_pop_cases h with ⟨hr, v, sp, rfl⟩ | ⟨op, c, raised⟩
  · refine ⟨fun j hj hsp => ?_, fun _ => rfl, rfl, rfl, rfl, rfl, rfl, .inl ⟨rfl, rfl⟩⟩
    have hne : (⟨r.toNat, hr⟩ : RegIdx) ≠ j := fun e => hj (congrArg Fin.val e).symm
    have hsp' : spIndex ≠ j := Ne.symm hsp
    rw [State.advance_reg, State.setReg_reg_ne _ sp hsp', State.setReg_reg_ne _ v hne, State.afterRead_reg]
  · obtain ⟨run, regs, pc, mem, out, reports, stop, inputs, cfg⟩ := raised.frame
    exact ⟨fun j _ _ => State.reg_congr regs j, State.load_congr mem, out, reports, stop, inputs, cfg,
      .inr ⟨run, regs, pc⟩⟩

/-! ### Memory over a whole step -/

/-- A host input that is no reset keeps memory (R34). -/
theorem hostMove_mem {m : HostInput} {s t : State} (hno : ∀ image, m ≠ .reset image)
    (h : hostMove m s = .next t) : t.mem = s.mem := by
  rcases hostMove_cases h with ⟨rfl, -⟩ | ⟨image, rfl, -, -⟩ | ⟨k, -, rfl⟩ | ⟨-, rfl⟩
  · exact absurd rfl (hno none)
  · exact absurd rfl (hno (some image))
  · exact s.requestStop_mem k
  · exact s.resume_mem

/-- An instruction step keeps memory, or it is a PUSH at the PC and writes one byte at SP - 1 (R28, R71). -/
theorem instructionStep_mem {s t : State} (hc : s.cfg.Valid) (h : instructionStep s = .next t) :
    t.mem = s.mem ∨ s.pc.toNat < s.cfg.memSize ∧ s.mem.read s.pc.toNat = s.cfg.opcPush ∧
      ∃ (a : Nat) (v : Byte), pushAddress s = a ∧ t.mem = s.mem.write a v := by
  rcases instructionStep_cases hc h with
    ⟨-, -, halted⟩ | ⟨-, -, skipped⟩ | ⟨-, hp, -, -, -, -, -, -, -, -, mem⟩ | ⟨c, op, u, port, rfl, -⟩
  · exact .inl (by simpa using congrArg State.mem halted)
  · exact .inl (by simpa using congrArg State.mem skipped)
  · rcases mem with mem | ⟨a, v, hop, ha, -, mem⟩
    · exact .inl mem
    · exact .inr ⟨by omega, hop, a, v, ha, mem⟩
  · exact .inl (by simpa using congrArg State.mem port)

/-- Settles O31, from the host's moves and the instruction step. -/
theorem onlyPushWritesMemory : Obligations.OnlyPushWritesMemory := by
  intro s t a hwf hno h hne
  obtain ⟨hc, ⟨m, later, hi, hm⟩ | ⟨-, later, -, ⟨-, rfl⟩ | ⟨-, -, rfl⟩ | ⟨hr, p, -, hstep⟩⟩⟩ := step_cases h
  · have notReset : ∀ image, m ≠ .reset image := fun image e => hno image later (e ▸ hi)
    exact absurd (State.load_congr (hostMove_mem notReset hm) a) hne
  · exact absurd rfl hne
  · exact absurd rfl hne
  · rcases instructionStep_mem (s := { s with inputs := later, stopPending := p }) hc hstep with
      mem | ⟨hp, hop, b, v, hb, mem⟩
    · exact absurd (State.load_congr mem a) hne
    · have hab : a = b := by
        by_contra hab
        exact hne (by rw [mem, Memory.read_write hwf, if_neg hab])
      exact ⟨hr, hp, hop, hab ▸ hb.symm⟩

/-- Settles O40: the host's move, with an image of another length, is the stop badImage (log 11). -/
theorem wrongImageStops : Obligations.WrongImageStops := by
  intro s image later hc hi hlen
  rw [step_of_host_turn hc hi]
  simp [hostMove, hlen]

end Sys2Proof.Machine
end

section
/-! The decoder and the encoder (30_encoding.md): the class of an instruction, decoding as the inverse of encoding, the
operand count, and the opcodes the dispatcher knows. -/

namespace Sys2Proof

/-! ### The class of an instruction -/

/-- The class the dispatcher gives the opcode of an instruction of the opcode map (R47, R53). -/
def Instr.opClass : Instr → OpClass
  | .hlt => .halt
  | .prn _ => .control .prn
  | .push _ => .control .push
  | .pop _ => .control .pop
  | .ldi _ _ => .control .ldi
  | .add _ _ => .alu .add
  | .mul _ _ => .alu .mul

/-- No instruction has the class of an unknown opcode. -/
theorem Instr.opClass_ne_unknown (i : Instr) : i.opClass ≠ .unknown := by cases i <;> nofun

/-- Every class but the unknown one is that of an instruction. -/
theorem OpClass.exists_opClass_eq {k : OpClass} (h : k ≠ .unknown) : ∃ i : Instr, k = i.opClass := by
  match k with
  | .halt => exact ⟨.hlt, rfl⟩
  | .control .ldi => exact ⟨.ldi 0 0, rfl⟩
  | .control .prn => exact ⟨.prn 0, rfl⟩
  | .control .push => exact ⟨.push 0, rfl⟩
  | .control .pop => exact ⟨.pop 0, rfl⟩
  | .alu .mul => exact ⟨.mul 0 0, rfl⟩
  | .alu .add => exact ⟨.add 0 0, rfl⟩
  | .unknown => exact absurd rfl h

/-- The seven opcode values of a valid set of parameters are distinct (R6). -/
theorem Config.Valid.opcodes_nodup {c : Config} (hc : c.Valid) : c.opcodes.Nodup := by
  obtain ⟨-, -, -, -, -, distinct⟩ := hc
  exact distinct

/-- A byte of an instruction's class is that instruction's opcode, and the instruction is in the opcode map. -/
theorem eq_opcodeOf_of_classify {c : Config} {op : Byte} {i : Instr} (h : classify c op = i.opClass) :
    op = opcodeOf c i ∧ WellFormed c i = true := by
  rcases classify_cases c op with ⟨e, o⟩ | ⟨e, o⟩ | ⟨e, o⟩ | ⟨e, o⟩ | ⟨e, o⟩ | ⟨e, o⟩ | ⟨e, o, w⟩ | e <;>
    rw [e] at h <;> cases i <;> cases h
  exacts [⟨o, rfl⟩, ⟨o, rfl⟩, ⟨o, rfl⟩, ⟨o, rfl⟩, ⟨o, rfl⟩, ⟨o, rfl⟩, ⟨o, w⟩]

/-- The opcode of an instruction of the opcode map has its class: the seven values are distinct (R6), so no row that
the dispatcher tries earlier takes it. -/
theorem classify_opcodeOf {c : Config} {i : Instr} (hc : c.Valid) (hi : WellFormed c i = true) :
    classify c (opcodeOf c i) = i.opClass := by
  have distinct := hc.opcodes_nodup
  simp only [Config.opcodes, List.nodup_cons, List.mem_cons, not_or] at distinct
  cases i <;> simp only [classify, opcodeOf, Instr.opClass, WellFormed] at hi ⊢ <;> grind -ring -linarith -lia

/-! ### The decoder -/

/-- Operand bytes are laid out as `i` exactly when they are those of `i`, for the class of `i` (R46). -/
theorem assemble_eq_some_iff {k : OpClass} {bytes rest : List Byte} {i : Instr} :
    assemble k bytes = some (i, rest) ↔ k = i.opClass ∧ bytes = operandsOf i ++ rest := by
  constructor
  · intro h
    unfold assemble at h
    split at h <;> cases h <;> exact ⟨rfl, rfl⟩
  · rintro ⟨rfl, rfl⟩
    cases i <;> rfl

/-- An unknown opcode is rejected, whatever follows (R49). -/
theorem decode_of_unknown {c : Config} {op : Byte} (h : classify c op = .unknown) (bytes : List Byte) :
    decode c (op :: bytes) = .unknownOpcode op := by
  simp [decode, h]

/-- A known opcode with the bytes after it decodes as their layout by its format says. -/
theorem decode_of_known {c : Config} {op : Byte} (h : classify c op ≠ .unknown) (bytes : List Byte) :
    (∃ i rest, assemble (classify c op) bytes = some (i, rest) ∧ decode c (op :: bytes) = .instr i rest) ∨
      assemble (classify c op) bytes = none ∧ decode c (op :: bytes) = .truncated op := by
  cases e : assemble (classify c op) bytes with
  | none => exact .inr ⟨rfl, by simp [decode, h, e]⟩
  | some p => exact .inl ⟨p.1, p.2, rfl, by simp [decode, h, e]⟩

/-- Bytes decode to an instruction exactly when the first has the class of the instruction and its operand bytes come
next. -/
theorem decode_cons_eq_instr_iff {c : Config} {op : Byte} {bytes rest : List Byte} {i : Instr} :
    decode c (op :: bytes) = .instr i rest ↔ classify c op = i.opClass ∧ bytes = operandsOf i ++ rest := by
  rw [← assemble_eq_some_iff]
  by_cases hu : classify c op = .unknown
  · simp [decode_of_unknown hu, hu, assemble]
  · rcases decode_of_known hu bytes with ⟨j, tail, layout, decoded⟩ | ⟨layout, decoded⟩ <;> simp [layout, decoded]

/-- Settles O1: an opcode of the map has its instruction's class, and the operand bytes are laid out by it. -/
theorem decodeOfEncode : Obligations.DecodeOfEncode := by
  intro c i rest hc hi
  exact decode_cons_eq_instr_iff.2 ⟨classify_opcodeOf hc hi, rfl⟩

/-- Settles O2: the class of the first byte gives the opcode, and the layout the operand bytes. -/
theorem encodeOfDecode : Obligations.EncodeOfDecode := by
  intro c bytes i rest h
  cases bytes with
  | nil => cases h
  | cons op tail =>
    obtain ⟨class_eq, rfl⟩ := decode_cons_eq_instr_iff.1 h
    obtain ⟨rfl, inMap⟩ := eq_opcodeOf_of_classify class_eq
    exact ⟨inMap, rfl⟩

/-! ### The operand count -/

/-- `op[7:6]` as a number (R45). -/
theorem operandCount_eq_div (op : Byte) : operandCount op = op.toNat / 64 := by
  have := op.isLt
  simp only [operandCount, BitVec.extractLsb'_toNat, Nat.shiftRight_eq_div_pow]
  omega

/-- The operand bytes of an instruction are as many as its opcode counts (R44). -/
theorem length_operandsOf {c : Config} (hc : c.Valid) (i : Instr) :
    (operandsOf i).length = operandCount (opcodeOf c i) := by
  have bytes : i.length = 1 + (operandsOf i).length := by cases i <;> rfl
  have := Machine.instr_length_eq hc i
  omega

/-- A known opcode followed by fewer bytes than it counts is truncated. -/
theorem decode_of_length_lt {c : Config} {op : Byte} {bytes : List Byte} (hc : c.Valid)
    (hop : classify c op ≠ .unknown) (hlen : bytes.length < operandCount op) :
    decode c (op :: bytes) = .truncated op := by
  rcases decode_of_known hop bytes with ⟨i, rest, layout, -⟩ | ⟨-, truncated⟩
  · obtain ⟨class_eq, rfl⟩ := assemble_eq_some_iff.1 layout
    obtain ⟨rfl, -⟩ := eq_opcodeOf_of_classify class_eq
    rw [List.length_append, length_operandsOf hc] at hlen
    omega
  · exact truncated

/-- A known opcode followed by as many bytes as it counts, or more, is decoded, and leaves the bytes after them. -/
theorem decode_of_le_length {c : Config} {op : Byte} {bytes : List Byte} (hc : c.Valid)
    (hop : classify c op ≠ .unknown) (hlen : operandCount op ≤ bytes.length) :
    ∃ i, decode c (op :: bytes) = .instr i (bytes.drop (operandCount op)) ∧ opcodeOf c i = op := by
  obtain ⟨i, decoded, opcode, operands⟩ := decode_of_count hc hop (List.length_take_of_le hlen)
  have class_eq := (decode_cons_eq_instr_iff.1 decoded).1
  exact ⟨i, decode_cons_eq_instr_iff.2 ⟨class_eq, by rw [operands, List.take_append_drop]⟩, opcode⟩

/-- Settles O5, from the layout of the operand bytes and the operand count of each opcode. -/
theorem operandCountRule : Obligations.OperandCountRule := by
  intro c op bytes hc hop
  obtain ⟨hlt, -, -, -, -, mul, add⟩ := operandCount_opcodes hc
  refine ⟨decode_of_length_lt hc hop, fun hlen => ?_, operandCount_eq_div op, fun halt => ?_, fun f alu => ?_⟩
  · obtain ⟨i, decoded, rfl⟩ := decode_of_le_length hc hop hlen
    exact ⟨i, decoded, Machine.instr_length_eq hc i⟩
  · obtain ⟨rfl, -⟩ := eq_opcodeOf_of_classify (i := .hlt) halt
    exact hlt
  · cases f with
    | mul =>
      obtain ⟨rfl, -⟩ := eq_opcodeOf_of_classify (i := .mul 0 0) alu
      exact mul
    | add =>
      obtain ⟨rfl, -⟩ := eq_opcodeOf_of_classify (i := .add 0 0) alu
      exact add

/-- An instruction has at most 2 operand bytes (R46). -/
theorem length_operandsOf_le (i : Instr) : (operandsOf i).length ≤ 2 := by cases i <;> simp [operandsOf]

/-- A known opcode counts at most 2 operand bytes (R44). -/
theorem operandCount_le_of_known {c : Config} {op : Byte} (hc : c.Valid) (h : classify c op ≠ .unknown) :
    operandCount op ≤ 2 := by
  obtain ⟨i, class_eq⟩ := OpClass.exists_opClass_eq h
  obtain ⟨rfl, -⟩ := eq_opcodeOf_of_classify class_eq
  exact length_operandsOf hc i ▸ length_operandsOf_le i

/-- Settles O7: such a byte counts 3 operand bytes, and no known opcode does. -/
theorem highOpcodesUnknown : Obligations.HighOpcodesUnknown := by
  intro c op bytes hc hop
  have unknown : classify c op = .unknown := by
    by_contra known
    have := operandCount_le_of_known hc known
    rw [operandCount_eq_div] at this
    omega
  exact ⟨unknown, decode_of_unknown unknown bytes⟩

/-! ### The known opcodes -/

/-- A byte is known exactly when it is the opcode of an instruction of the opcode map (R53). -/
theorem classify_ne_unknown_iff {c : Config} {op : Byte} (hc : c.Valid) :
    classify c op ≠ .unknown ↔ ∃ i, op = opcodeOf c i ∧ WellFormed c i = true := by
  constructor
  · intro known
    obtain ⟨i, class_eq⟩ := OpClass.exists_opClass_eq known
    exact ⟨i, eq_opcodeOf_of_classify class_eq⟩
  · rintro ⟨i, rfl, inMap⟩
    rw [classify_opcodeOf hc inMap]
    exact i.opClass_ne_unknown

/-- The seven opcode values are those of the instructions (R47). -/
theorem mem_opcodes_iff {c : Config} {op : Byte} : op ∈ c.opcodes ↔ ∃ i, op = opcodeOf c i := by
  constructor
  · simp only [Config.opcodes, List.mem_cons, List.not_mem_nil, or_false]
    rintro (rfl | rfl | rfl | rfl | rfl | rfl | rfl)
    exacts [⟨.hlt, rfl⟩, ⟨.prn 0, rfl⟩, ⟨.push 0, rfl⟩, ⟨.pop 0, rfl⟩, ⟨.ldi 0 0, rfl⟩, ⟨.add 0 0, rfl⟩,
      ⟨.mul 0 0, rfl⟩]
  · rintro ⟨i, rfl⟩
    cases i <;> simp [opcodeOf, Config.opcodes]

/-- An instruction is out of the opcode map exactly when its opcode is ADD's and ADD is not wired (R47). -/
theorem wellFormed_iff {c : Config} (hc : c.Valid) (i : Instr) :
    WellFormed c i = true ↔ (opcodeOf c i = c.opcAdd → c.addWired = true) := by
  have distinct := hc.opcodes_nodup
  simp only [Config.opcodes, List.nodup_cons, List.mem_cons, not_or] at distinct
  cases i <;> simp only [opcodeOf, WellFormed] <;> grind -ring -linarith -lia

/-- The opcode values the dispatcher knows: all seven, or all but ADD's when ADD is not wired (R49). -/
def Config.knownOpcodes (c : Config) : List Byte :=
  if c.addWired = true then c.opcodes else c.opcodes.erase c.opcAdd

/-- A byte is unknown exactly when it is none of the known opcodes. -/
theorem classify_eq_unknown_iff {c : Config} {op : Byte} (hc : c.Valid) :
    classify c op = .unknown ↔ op ∉ c.knownOpcodes := by
  have distinct := hc.opcodes_nodup
  have known : op ∈ c.knownOpcodes ↔ op ∈ c.opcodes ∧ (op = c.opcAdd → c.addWired = true) := by
    unfold Config.knownOpcodes
    split
    · simp [*]
    · simp [distinct.mem_erase_iff, and_comm, *]
  rw [← not_iff_not, not_not, ← ne_eq, classify_ne_unknown_iff hc, known, mem_opcodes_iff]
  constructor
  · rintro ⟨i, rfl, inMap⟩
    exact ⟨⟨i, rfl⟩, (wellFormed_iff hc i).1 inMap⟩
  · rintro ⟨⟨i, rfl⟩, wired⟩
    exact ⟨i, rfl, (wellFormed_iff hc i).2 wired⟩

/-- The known opcodes are distinct. -/
theorem Config.knownOpcodes_nodup {c : Config} (hc : c.Valid) : c.knownOpcodes.Nodup := by
  have distinct := hc.opcodes_nodup
  unfold Config.knownOpcodes
  split
  · exact distinct
  · exact distinct.erase c.opcAdd

/-- There are 7 known opcodes, 6 without ADD. -/
theorem Config.length_knownOpcodes (c : Config) : c.knownOpcodes.length = if c.addWired = true then 7 else 6 := by
  unfold Config.knownOpcodes
  split
  · rfl
  · have add_mem : c.opcAdd ∈ c.opcodes := mem_opcodes_iff.2 ⟨.add 0 0, rfl⟩
    rw [List.length_erase_of_mem add_mem]
    rfl

/-- Among the 256 byte values are as many of a list of distinct bytes as the list has. -/
theorem length_filter_range_mem {l : List Byte} (h : l.Nodup) :
    ((List.range 256).filter fun n => BitVec.ofNat 8 n ∈ l).length = l.length := by
  have perm : ((List.range 256).filter fun n => BitVec.ofNat 8 n ∈ l).Perm (l.map BitVec.toNat) := by
    have distinct : (l.map BitVec.toNat).Nodup := h.map fun _ _ => BitVec.eq_of_toNat_eq
    refine (List.perm_ext_iff_of_nodup (List.nodup_range.filter _) distinct).2 fun n => ?_
    simp only [List.mem_filter, List.mem_range, decide_eq_true_eq, List.mem_map]
    constructor
    · rintro ⟨lt, mem⟩
      exact ⟨_, mem, Nat.mod_eq_of_lt lt⟩
    · rintro ⟨b, mem, rfl⟩
      exact ⟨b.isLt, by simpa using mem⟩
  simpa using perm.length_eq

/-- Settles O6: the unknown opcodes are the byte values that are none of the known ones. -/
theorem unknownOpcodeCount : Obligations.UnknownOpcodeCount := by
  intro c hc
  have total := List.length_eq_length_filter_add (l := List.range 256) fun n => BitVec.ofNat 8 n ∈ c.knownOpcodes
  rw [length_filter_range_mem (Config.knownOpcodes_nodup hc), c.length_knownOpcodes, List.length_range] at total
  simp only [classify_eq_unknown_iff hc, decide_not]
  split_ifs at total ⊢ <;> omega

/-! ### The words of the opcode table -/

/-- Settles O3, by running the decoder on each word (R47, R51). -/
theorem opcodeTableWords : Obligations.OpcodeTableWords := by
  unfold Obligations.OpcodeTableWords
  decide

end Sys2Proof
end

section
/-! The dispatcher (40_cycle.md rule R53): each class comes from its own opcode byte. -/

namespace Sys2Proof

/-- A byte has the class of an instruction exactly when it is the opcode of it, and the instruction is in the opcode
map. -/
theorem classify_eq_opClass_iff {c : Config} (hc : c.Valid) (op : Byte) (i : Instr) :
    classify c op = i.opClass ↔ op = opcodeOf c i ∧ WellFormed c i = true := by
  constructor
  · exact eq_opcodeOf_of_classify
  · rintro ⟨rfl, inMap⟩
    exact classify_opcodeOf hc inMap

/-- A byte is unknown exactly when it has none of the seven classes of instructions. -/
theorem classify_eq_unknown_iff_forall_ne {c : Config} {op : Byte} :
    classify c op = .unknown ↔ ∀ i : Instr, classify c op ≠ i.opClass := by
  constructor
  · intro unknown i
    rw [unknown]
    exact i.opClass_ne_unknown.symm
  · intro none
    by_contra known
    obtain ⟨i, class_eq⟩ := OpClass.exists_opClass_eq known
    exact none i class_eq

/-- Settles O4, from the class of each instruction's opcode. -/
theorem dispatcherMatchesWholeByte : Obligations.DispatcherMatchesWholeByte := by
  intro c op hc
  have mapped := classify_eq_opClass_iff hc op
  refine ⟨(mapped .hlt).trans (and_iff_left rfl), (mapped (.ldi 0 0)).trans (and_iff_left rfl),
    (mapped (.prn 0)).trans (and_iff_left rfl), (mapped (.push 0)).trans (and_iff_left rfl),
    (mapped (.pop 0)).trans (and_iff_left rfl), (mapped (.mul 0 0)).trans (and_iff_left rfl), mapped (.add 0 0), ?_⟩
  simp only [classify_eq_unknown_iff_forall_ne, ne_eq, mapped]
  constructor
  · intro none
    exact ⟨fun h => none .hlt ⟨h, rfl⟩, fun h => none (.ldi 0 0) ⟨h, rfl⟩, fun h => none (.prn 0) ⟨h, rfl⟩,
      fun h => none (.push 0) ⟨h, rfl⟩, fun h => none (.pop 0) ⟨h, rfl⟩, fun h => none (.mul 0 0) ⟨h, rfl⟩,
      none (.add 0 0)⟩
  · rintro ⟨hlt, ldi, prn, push, pop, mul, add⟩ i ⟨opcode, inMap⟩
    cases i with
    | hlt => exact hlt opcode
    | ldi r imm => exact ldi opcode
    | prn r => exact prn opcode
    | push r => exact push opcode
    | pop r => exact pop opcode
    | mul a b => exact mul opcode
    | add a b => exact add ⟨opcode, inMap⟩

end Sys2Proof
end

section
/-! The instruction step (40_cycle.md): the turns the engine takes, the fetch and its order of checks, the advance of
the PC, and that every run ends. -/

namespace Sys2Proof.Machine

/-! ### The fetch -/

/-- A PC outside memory: the step faults before the opcode fetch (R55). -/
theorem instructionStep_of_pc_out {s : State} (hp : s.cfg.memSize ≤ s.pc.toNat) :
    instructionStep s = .next (s.raise (.outOfBounds s.pc.toNat) none) := by
  have out : inBounds s.cfg (s.pc.toNat : Int) = none := inBounds_eq_none.2 (.inr (by omega))
  simp [instructionStep, fetch, out]

/-- The bounds check on a PC inside memory passes. -/
theorem inBounds_pc {s : State} (hp : s.pc.toNat < s.cfg.memSize) :
    inBounds s.cfg (s.pc.toNat : Int) = some s.pc.toNat :=
  inBounds_eq_some.2 ⟨rfl, hp⟩

/-- An unknown opcode at the PC is reported and skipped (R57). -/
theorem instructionStep_of_unknown {s : State} (hp : s.pc.toNat < s.cfg.memSize)
    (hop : classify s.cfg (s.load s.pc.toNat) = .unknown) :
    instructionStep s = .next ((s.afterRead s.pc.toNat).skipUnknown (s.load s.pc.toNat)) := by
  simp [instructionStep, fetch, inBounds_pc hp, hop]

/-- A known opcode at the PC whose first operand byte outside memory is byte `k` after it: the step faults there,
whatever the operand bytes before it (R56). -/
theorem instructionStep_of_operand_out {s : State} {k : Nat} (hop : classify s.cfg (s.load s.pc.toNat) ≠ .unknown)
    (hpos : 1 ≤ k) (hk : k ≤ operandCount (s.load s.pc.toNat)) (hge : s.cfg.memSize ≤ s.pc.toNat + k)
    (hlt : ∀ j < k, s.pc.toNat + j < s.cfg.memSize) :
    ∃ t, instructionStep s = .next t ∧
      s.Raises (s.load s.pc.toNat) (.outOfBounds ((s.pc.toNat + k : Nat) : Int)) t := by
  obtain ⟨m, rfl⟩ := Nat.exists_eq_add_of_le hpos
  obtain ⟨t, fetched, u, port, raised⟩ := fetchOperands_of_ge (s := s.afterRead s.pc.toNat)
    (op := s.load s.pc.toNat) (i := 1) (n := operandCount (s.load s.pc.toNat)) (k := m) (by omega) hge
    fun j hj => hlt (1 + j) (by omega)
  exact ⟨t, by simp [instructionStep, fetch, inBounds_pc (hlt 0 hpos), hop, fetched], u, port, raised⟩

/-- From a PC outside memory there are no bytes to decode. -/
theorem State.codeAtPc_of_pc_out {s : State} (hp : s.cfg.memSize ≤ s.pc.toNat) : s.codeAtPc = [] := by
  simp [State.codeAtPc, Nat.sub_eq_zero_of_le hp]

/-- The bytes from a PC inside memory are the opcode and the bytes after it. -/
theorem State.codeAtPc_of_pc_in {s : State} (hp : s.pc.toNat < s.cfg.memSize) :
    s.codeAtPc = s.load s.pc.toNat ::
      (List.range (s.cfg.memSize - s.pc.toNat - 1)).map fun k => s.mem.read (s.pc.toNat + (1 + k)) := by
  obtain ⟨n, hn⟩ := Nat.exists_eq_add_of_lt hp
  have cells : s.cfg.memSize - s.pc.toNat = n + 1 := by omega
  simp only [State.codeAtPc, cells, List.range_succ_eq_map, List.map_cons, List.map_map]
  simp [State.load, Function.comp_def, Nat.add_comm 1]

/-- An instruction the decoder reads at the PC lies in memory: its opcode is at the PC, its operand bytes after it. -/
theorem of_decode_codeAtPc {s : State} {i : Instr} {rest : List Byte}
    (h : decode s.cfg s.codeAtPc = .instr i rest) :
    s.pc.toNat + (operandsOf i).length < s.cfg.memSize ∧ classify s.cfg (s.load s.pc.toNat) = i.opClass ∧
      operandsOf i = (List.range (operandsOf i).length).map fun k => s.mem.read (s.pc.toNat + (1 + k)) := by
  rcases Nat.lt_or_ge s.pc.toNat s.cfg.memSize with hp | hp
  · rw [State.codeAtPc_of_pc_in hp] at h
    obtain ⟨class_eq, bytes⟩ := decode_cons_eq_instr_iff.1 h
    have count : (operandsOf i).length ≤ s.cfg.memSize - s.pc.toNat - 1 := by
      have := congrArg List.length bytes
      rw [List.length_map, List.length_range, List.length_append] at this
      omega
    refine ⟨by omega, class_eq, ?_⟩
    have first := congrArg (List.take (operandsOf i).length) bytes
    rw [List.take_left', ← List.map_take, List.take_range, Nat.min_eq_left count] at first
    · exact first.symm
    · rfl
  · rw [State.codeAtPc_of_pc_out hp] at h
    cases h

/-- The step executes the instruction the decoder reads at the PC, after a fetch that changes the memory port alone
(R56, R59). -/
theorem instructionStep_of_decode {s : State} {i : Instr} {rest : List Byte} (hc : s.cfg.Valid)
    (h : decode s.cfg s.codeAtPc = .instr i rest) :
    ∃ t : State, t.erasePort = s.erasePort ∧ instructionStep s = exec i t := by
  obtain ⟨inMemory, class_eq, operands⟩ := of_decode_codeAtPc h
  have known : classify s.cfg (s.load s.pc.toNat) ≠ .unknown := class_eq ▸ i.opClass_ne_unknown
  obtain ⟨opcode, -⟩ := eq_opcodeOf_of_classify class_eq
  have count : operandCount (s.load s.pc.toNat) = (operandsOf i).length := by
    rw [opcode, length_operandsOf hc]
  obtain ⟨t, port, fetched⟩ := fetchOperands_of_lt (s := s.afterRead s.pc.toNat) (op := s.load s.pc.toNat) (i := 1)
    (n := (operandsOf i).length) (by simp only [State.afterRead_pc, State.afterRead_cfg]; omega)
  simp only [State.afterRead_mem, State.afterRead_pc, ← operands] at fetched
  have decoded : decode s.cfg (s.load s.pc.toNat :: operandsOf i) = .instr i [] :=
    decode_cons_eq_instr_iff.2 ⟨class_eq, by simp⟩
  refine ⟨t, port, ?_⟩
  simp [instructionStep, fetch, inBounds_pc (by omega : s.pc.toNat < s.cfg.memSize), known, count, fetched, decoded]

/-! ### The bounds of the fetch -/

/-- Settles O10. -/
theorem opcodeFetchBound : Obligations.OpcodeFetchBound := by
  intro s hc hp
  exact ⟨_, instructionStep_of_pc_out hp, toInt_ofInt_addr _ (by omega) (by omega), rfl⟩

/-- A fault raised outside memory keeps all but the run state, the record and the memory port; the record holds the
address, the opcode and the PC (R76, R79). -/
theorem State.Raises.of_outOfBounds {s t : State} {op : Byte} {a : Int} (h : s.Raises op (.outOfBounds a) t)
    (hlow : -512 ≤ a) (hhigh : a < 512) :
    t.fault.addr.toInt = a ∧
      t.erasePort = State.erasePort { s with
        runState := .faulted
        fault := { code := .outOfBoundsAddress, pc := s.pc, opcodeValid := true, opcode := op, addr := t.fault.addr,
                   index := 0 } } := by
  obtain ⟨u, port, rfl⟩ := h
  exact ⟨toInt_ofInt_addr a hlow hhigh, State.raise_erasePort port _ _⟩

/-- Settles O11. -/
theorem operandFetchBound : Obligations.OperandFetchBound := by
  intro s k hc hop hpos hk hge hlt
  obtain ⟨t, stepped, raised⟩ := instructionStep_of_operand_out hop hpos hk hge hlt
  have : s.cfg.memSize ≤ 256 := hc.1.2
  have := hlt (k - 1) (by omega)
  obtain ⟨addr, frame⟩ := raised.of_outOfBounds (by omega) (by omega)
  exact ⟨t, stepped, addr, frame⟩

/-- Settles O12. -/
theorem unknownOpcodeStep : Obligations.UnknownOpcodeStep := by
  intro s hc hr hp hop
  have : s.cfg.memSize ≤ 256 := hc.1.2
  exact ⟨_, instructionStep_of_unknown hp hop, toNat_pc_add (p := s.pc) (n := 1) (by omega), hr, rfl⟩

/-! ### The order of the checks -/

/-- The checks of an executed instruction: its register operands first, an index of 8 or more faulting it; then only
PUSH and POP check more, and can take an address fault (R77, R81). -/
theorem exec_check_cases {i : Instr} {s t : State} (h : exec i s = .next t) :
    (RegisterForm i = false ∧ t.runState = .faulted ∧ t.fault.code = .invalidRegisterIndex) ∨
    (RegisterForm i = true ∧ (t.runState = .halted ∨ t.runState = s.runState ∨
      t.fault.code = .outOfBoundsAddress ∧ ∃ r, i = .push r ∨ i = .pop r)) := by
  cases i with
  | hlt =>
    obtain rfl := execHlt_cases h
    exact .inr ⟨rfl, .inl rfl⟩
  | ldi r imm =>
    rcases execLdi_cases h with ⟨hr, rfl⟩ | ⟨hr, rfl⟩
    · exact .inr ⟨by simp [RegisterForm, hr], .inr (.inl rfl)⟩
    · exact .inl ⟨by simp [RegisterForm, hr], rfl, rfl⟩
  | prn r =>
    rcases execPrn_cases h with ⟨hr, rfl⟩ | ⟨hr, rfl⟩
    · exact .inr ⟨by simp [RegisterForm, hr], .inr (.inl rfl)⟩
    · exact .inl ⟨by simp [RegisterForm, hr], rfl, rfl⟩
  | push r =>
    rcases execPush_cases h with ⟨hr, a, -, -, rfl⟩ | ⟨hr, rfl⟩ | ⟨hr, -, rfl⟩
    · exact .inr ⟨by simp [RegisterForm, hr], .inr (.inl rfl)⟩
    · exact .inl ⟨by simp [RegisterForm, hr], rfl, rfl⟩
    · exact .inr ⟨by simp [RegisterForm, hr], .inr (.inr ⟨rfl, r, .inl rfl⟩)⟩
  | pop r =>
    rcases execPop_cases h with ⟨hr, n, -, -, -, rfl⟩ | ⟨hr, rfl⟩ | ⟨hr, -, rfl⟩ | ⟨hr, -, -, rfl⟩
    · exact .inr ⟨by simp [RegisterForm, hr], .inr (.inl rfl)⟩
    · exact .inl ⟨by simp [RegisterForm, hr], rfl, rfl⟩
    · exact .inr ⟨by simp [RegisterForm, hr], .inr (.inr ⟨rfl, r, .inr rfl⟩)⟩
    · exact .inr ⟨by simp [RegisterForm, hr], .inr (.inr ⟨rfl, r, .inr rfl⟩)⟩
  | mul a b =>
    rcases execMul_cases h with ⟨ha, hb, rfl⟩ | ⟨ha, rfl⟩ | ⟨-, hb, rfl⟩
    · exact .inr ⟨by simp [RegisterForm, ha, hb], .inr (.inl rfl)⟩
    · exact .inl ⟨by simp [RegisterForm, ha], rfl, rfl⟩
    · exact .inl ⟨by simp [RegisterForm, hb], rfl, rfl⟩
  | add a b =>
    rcases execAdd_cases h with ⟨ha, hb, rfl⟩ | ⟨ha, rfl⟩ | ⟨-, hb, rfl⟩
    · exact .inr ⟨by simp [RegisterForm, ha, hb], .inr (.inl rfl)⟩
    · exact .inl ⟨by simp [RegisterForm, ha], rfl, rfl⟩
    · exact .inl ⟨by simp [RegisterForm, hb], rfl, rfl⟩

/-- Settles O23, one clause per check: the PC, the operand bytes, the register operands, the stack. -/
theorem firstFailingCheck : Obligations.FirstFailingCheck := by
  intro s t hc hr h
  have hsize : s.cfg.memSize ≤ 256 := hc.1.2
  refine ⟨fun hp => ?_, fun hp hop hge => ?_, fun i rest decoded hform => ?_, fun i rest decoded hform faulted => ?_⟩
  · rw [instructionStep_of_pc_out hp] at h
    cases h
    exact ⟨rfl, rfl⟩
  · obtain ⟨k, hk⟩ := Nat.exists_eq_add_of_lt hp
    obtain ⟨t', stepped, u, -, rfl⟩ := instructionStep_of_operand_out (k := k + 1) hop (by omega)
      (by unfold State.load; omega) (by omega) fun j hj => by omega
    rw [stepped] at h
    cases h
    refine ⟨rfl, rfl, ?_⟩
    rw [hk]
    exact toInt_ofInt_addr _ (by omega) (by omega)
  · obtain ⟨u, -, executes⟩ := instructionStep_of_decode hc decoded
    rcases exec_check_cases (executes ▸ h) with ⟨-, index⟩ | ⟨hform', -⟩
    · exact index
    · simp [hform] at hform'
  · obtain ⟨u, port, executes⟩ := instructionStep_of_decode hc decoded
    have running : u.runState = .running := by simpa [hr] using congrArg State.runState port
    rcases exec_check_cases (executes ▸ h) with ⟨hform', -⟩ | ⟨-, halted | kept | address⟩
    · simp [hform] at hform'
    · simp [faulted] at halted
    · simp [faulted, running] at kept
    · exact address

/-! ### The advance of the PC -/

/-- An instruction step that halts or faults keeps the PC; any other keeps the run state and moves the PC past its bytes,
exactly (R58). -/
theorem instructionStep_pc_cases {s t : State} (hc : s.cfg.Valid) (h : instructionStep s = .next t) :
    ((t.runState = .halted ∨ t.runState = .faulted) ∧ t.pc = s.pc) ∨
    (t.runState = s.runState ∧ t.pc.toNat ≤ s.cfg.memSize ∧ t.pc.toNat = s.pc.toNat + 1 +
      if classify s.cfg (s.load s.pc.toNat) = .unknown then 0 else operandCount (s.load s.pc.toNat)) := by
  have hsize : s.cfg.memSize ≤ 256 := hc.1.2
  rcases instructionStep_cases hc h with
    ⟨-, -, halted⟩ | ⟨hp, hop, skipped⟩ | ⟨hop, hp, run, -, pc, -⟩ | ⟨c, op, u, port, rfl, -⟩
  · obtain ⟨-, pc, run, -⟩ := State.fields_of_erasePort_eq halted
    exact .inl ⟨.inl run, pc⟩
  · obtain ⟨-, pc, run, -⟩ := State.fields_of_erasePort_eq skipped
    have moved : t.pc.toNat = s.pc.toNat + 1 := pc ▸ toNat_pc_add (p := s.pc) (n := 1) (by omega)
    exact .inr ⟨run, by omega, by rw [moved, if_pos hop]⟩
  · have moved : t.pc.toNat = s.pc.toNat + (1 + operandCount (s.load s.pc.toNat)) := pc ▸ toNat_pc_add (by omega)
    exact .inr ⟨run, by omega, by rw [moved, if_neg hop, Nat.add_assoc]⟩
  · obtain ⟨-, pc, -⟩ := State.fields_of_erasePort_eq port
    exact .inl ⟨.inr rfl, pc⟩

/-- Settles O29. -/
theorem pcAdvance : Obligations.PcAdvance := by
  intro s t hc hr h
  rcases instructionStep_pc_cases hc h with ⟨ended, pc⟩ | ⟨run, bound, moved⟩
  · exact ⟨fun running => by simp [running] at ended, fun _ => pc⟩
  · refine ⟨fun _ => ⟨moved, bound, fun f alu => ?_⟩, fun stopped => absurd (run.trans hr) stopped⟩
    have known : classify s.cfg (s.mem.read s.pc.toNat) ≠ .unknown := by simp [alu]
    obtain ⟨-, -, -, -, aluCount⟩ := operandCountRule s.cfg _ [] hc known
    rw [moved, State.load, if_neg known, aluCount f alu]

/-! ### The turns of the engine -/

/-- At a turn at which the host gives nothing, the move is the engine's. -/
theorem nextTurn_of_silent {s : State} {later : List (Option HostInput)}
    (h : s.inputs = none :: later ∨ s.inputs = [] ∧ later = []) :
    nextTurn s = engineTurn { s with inputs := later } := by
  rcases h with h | ⟨h, rfl⟩
  · simp [nextTurn, h]
  · simp only [nextTurn, h]
    rw [← h]

/-- Settles O9, from the engine's three moves in RUNNING. -/
theorem step_engineTurn : Obligations.EngineTurn := by
  intro s later hc hr silent
  refine ⟨fun stop => ?_, fun stop => ?_, fun k stop => ?_⟩
  · simp [step, hc, nextTurn_of_silent silent, engineTurn, hr, stop]
  · simp [step, hc, nextTurn_of_silent silent, engineTurn, hr, stop, State.takeStop]
  · simp [step, hc, nextTurn_of_silent silent, engineTurn, hr, stop]

/-- A state from which the engine takes an instruction step keeps the parameters and the bytes at the PC. -/
theorem State.RunsInstruction.code_eq {s u : State} (h : s.RunsInstruction u) :
    u.cfg = s.cfg ∧ u.codeAtPc = s.codeAtPc := by
  rw [h.same]
  exact ⟨rfl, rfl⟩

/-- Where the next step is an instruction step, it is the one from the state the engine starts from (R60, R85). -/
theorem State.RunsInstruction.step_eq {s u : State} (h : s.RunsInstruction u) (hc : s.cfg.Valid) :
    step s = instructionStep u := by
  obtain ⟨hr, silent, stop, same⟩ := h
  obtain ⟨noStop, -, counts⟩ := step_engineTurn s u.inputs hc hr silent
  cases pending : u.stopPending with
  | none =>
    rw [pending] at stop same
    have noStop' : s.stopPending = none := stop
    rw [noStop noStop', same, ← noStop']
  | some k =>
    rw [pending] at stop same
    rw [counts k stop, same]

/-- At an instruction the engine starts from the state itself. -/
theorem State.AtInstruction.runsInstruction {s : State} (h : s.AtInstruction) : s.RunsInstruction s where
  running := h.running
  silent := .inr ⟨h.silent, h.silent⟩
  stop := by simp [h.noStop]
  same := rfl

/-- Settles O8, from the instruction step on the bytes at the PC and the engine's turn. -/
theorem stepRunsDecoded : Obligations.StepRunsDecoded := by
  refine ⟨fun s u i rest hc runs decoded => ?_, fun s u hc runs => runs.step_eq hc,
    fun s atInstruction => atInstruction.runsInstruction, fun s i rest hc => instructionStep_of_decode hc⟩
  obtain ⟨cfg, code⟩ := runs.code_eq
  rw [runs.step_eq hc]
  exact instructionStep_of_decode (rest := rest) (cfg ▸ hc) (by rw [cfg, code, decoded])

/-! ### The states in which no instruction step is taken -/

/-- Outside RUNNING, at a turn at which the host gives nothing, the step uses up the turn alone (log 5). -/
theorem step_of_silent_not_running {s : State} {later : List (Option HostInput)} (hc : s.cfg.Valid)
    (silent : s.inputs = none :: later ∨ s.inputs = [] ∧ later = []) (hr : s.runState ≠ .running) :
    step s = .next { s with inputs := later } := by
  cases run : s.runState with
  | running => exact absurd run hr
  | halted => simp [step, hc, nextTurn_of_silent silent, engineTurn, run]
  | faulted => simp [step, hc, nextTurn_of_silent silent, engineTurn, run]
  | stopped => simp [step, hc, nextTurn_of_silent silent, engineTurn, run]

/-- Settles O33: nothing happens at a silent turn, and a stop request and a resume do nothing in these states. -/
theorem quietStatesStay : Obligations.QuietStatesStay := by
  intro s turn later hc hi quiet
  have notRunning : s.runState ≠ .running := by
    rcases quiet with ⟨hr | hr, -⟩ | ⟨hr, -⟩ <;> simp [hr]
  cases turn with
  | none =>
    refine step_of_silent_not_running hc ?_ notRunning
    rcases hi with hi | ⟨hi, -, nil⟩
    · exact .inl hi
    · exact .inr ⟨hi, nil⟩
  | some m =>
    have given : s.inputs = some m :: later := by simpa using hi
    rw [step_of_host_turn hc given]
    cases m with
    | stopReq k => exact congrArg Host.Outcome.next (State.requestStop_not_running { s with inputs := later } k notRunning)
    | resume =>
      have notStopped : s.runState ≠ .stopped := by
        rcases quiet with ⟨hr | hr, -⟩ | ⟨-, stopOrNothing⟩
        · simp [hr]
        · simp [hr]
        · simp at stopOrNothing
      exact congrArg Host.Outcome.next (State.resume_not_stopped { s with inputs := later } notStopped)
    | reset image =>
      rcases quiet with ⟨-, noReset⟩ | ⟨-, stopOrNothing⟩
      · exact absurd rfl (noReset image)
      · simp at stopOrNothing

/-! ### Every run ends -/

/-- An instruction step uses no turn of the host and no pending stop. -/
theorem instructionStep_turns {s t : State} (hc : s.cfg.Valid) (h : instructionStep s = .next t) :
    t.stopPending = s.stopPending ∧ t.inputs = s.inputs := by
  rcases instructionStep_cases hc h with
    ⟨-, -, halted⟩ | ⟨-, -, skipped⟩ | ⟨-, -, -, -, -, -, inputs, stop, -⟩ | ⟨c, op, u, port, rfl, -⟩
  · obtain ⟨-, -, -, -, -, -, -, stop, inputs, -⟩ := State.fields_of_erasePort_eq halted
    exact ⟨stop, inputs⟩
  · obtain ⟨-, -, -, -, -, -, -, stop, inputs, -⟩ := State.fields_of_erasePort_eq skipped
    exact ⟨stop, inputs⟩
  · exact ⟨stop, inputs⟩
  · obtain ⟨-, -, -, -, -, -, -, stop, inputs, -⟩ := State.fields_of_erasePort_eq port
    exact ⟨stop, inputs⟩

/-- Once a run has ended and the host is silent, further steps change nothing (log 5). -/
theorem run_of_ended {s : State} (k : Nat) (hc : s.cfg.Valid) (silent : s.inputs = [])
    (ended : s.runState = .halted ∨ s.runState = .faulted) : Sys2Proof.core.run k s = .next s := by
  have notRunning : s.runState ≠ .running := by rcases ended with hr | hr <;> simp [hr]
  have stays : step s = .next s := by
    rw [step_of_silent_not_running hc (.inr ⟨silent, rfl⟩) notRunning, ← silent]
  induction k with
  | zero => rfl
  | succ k ih => rw [run_succ k stays, ih]

/-- A step at an instruction ends the run, or leads to an instruction further on, from a PC inside memory. -/
theorem step_atInstruction_cases {s : State} (hc : s.cfg.Valid) (h : s.AtInstruction) :
    ∃ t : State, step s = .next t ∧ t.cfg = s.cfg ∧ t.inputs = [] ∧
      ((t.runState = .halted ∨ t.runState = .faulted) ∨
        t.AtInstruction ∧ s.pc.toNat < s.cfg.memSize ∧ s.pc.toNat < t.pc.toNat) := by
  obtain ⟨t, stepped⟩ := instructionStep_next hc
  obtain ⟨stop, inputs⟩ := instructionStep_turns hc stepped
  refine ⟨t, step_of_atInstruction hc h ▸ stepped, instructionStep_cfg hc stepped, inputs.trans h.silent, ?_⟩
  rcases instructionStep_pc_cases hc stepped with ⟨ended, -⟩ | ⟨run, bound, moved⟩
  · exact .inl ended
  · exact .inr ⟨⟨run.trans h.running, stop.trans h.noStop, inputs.trans h.silent⟩, by omega, by omega⟩

/-- A run with at most `n` bytes of memory from its PC on ends within `n + 1` steps (R62). -/
theorem run_ends {n : Nat} {s : State} (hc : s.cfg.Valid) (h : s.AtInstruction)
    (hn : s.cfg.memSize ≤ s.pc.toNat + n) :
    ∃ t : State, Sys2Proof.core.run (n + 1) s = .next t ∧ (t.runState = .halted ∨ t.runState = .faulted) := by
  induction n generalizing s with
  | zero =>
    obtain ⟨t, stepped, -, -, ended | ⟨-, inMemory, -⟩⟩ := step_atInstruction_cases hc h
    · exact ⟨t, run_succ 0 stepped, ended⟩
    · omega
  | succ n ih =>
    obtain ⟨t, stepped, cfg, silent, ended | ⟨atNext, -, further⟩⟩ := step_atInstruction_cases hc h
    · exact ⟨t, (run_succ (n + 1) stepped).trans (run_of_ended (n + 1) (cfg ▸ hc) silent ended), ended⟩
    · rw [run_succ (n + 1) stepped]
      exact ih (cfg ▸ hc) atNext (by rw [cfg]; omega)

/-- Settles O45, by induction on the bytes of memory from the PC on. -/
theorem everyRunEnds : Obligations.EveryRunEnds := by
  intro s hc h
  exact run_ends hc h (Nat.le_add_left _ _)

/-! ### The instructions that complete -/

/-- LDI completes with a register number (R69). -/
theorem exec_ldi_of_lt {r : Byte} (hr : r.toNat < 8) (imm : Byte) (s : State) :
    exec (.ldi r imm) s = .next ((s.setReg ⟨r.toNat, hr⟩ imm).advance 3) := by
  simp [exec, execLdi, withReg_of_lt hr]

/-- PRN completes with a register number (R70). -/
theorem exec_prn_of_lt {r : Byte} (hr : r.toNat < 8) (s : State) :
    exec (.prn r) s = .next ((s.emit (s.reg ⟨r.toNat, hr⟩)).advance 2) := by
  simp [exec, execPrn, withReg_of_lt hr]

/-- PUSH completes with a register number, when SP - 1 is a cell (R71). -/
theorem exec_push_of_cell {r : Byte} {s : State} {a : Nat} (hr : r.toNat < 8) (ha : pushAddress s = a)
    (hcell : a < s.cfg.memSize) :
    exec (.push r) s = .next (((s.setReg spIndex (BitVec.ofNat 8 a)).store a
      ((s.setReg spIndex (BitVec.ofNat 8 a)).reg ⟨r.toNat, hr⟩)).advance 2) := by
  simp [exec, execPush, withReg_of_lt hr, withCell_of_mem ha hcell]

/-- POP completes with a register number, when SP and the new SP are cells (R72). -/
theorem exec_pop_of_cell {r : Byte} {s : State} {n : Nat} (hr : r.toNat < 8) (hsp : s.sp.toNat < s.cfg.memSize)
    (hn : popNewSp ⟨r.toNat, hr⟩ (s.load s.sp.toNat) s = n) (hcell : n < s.cfg.memSize) :
    exec (.pop r) s = .next ((((s.afterRead s.sp.toNat).setReg ⟨r.toNat, hr⟩ (s.load s.sp.toNat)).setReg spIndex
      (BitVec.ofNat 8 n)).advance 2) := by
  have read : popAddress s = s.sp.toNat := rfl
  simp [exec, execPop, withReg_of_lt hr, withCell_of_mem read hsp,
    withCell_of_mem (s := s.afterRead s.sp.toNat) hn hcell]

/-- The ALU completes with two register numbers (R63). -/
theorem aluApply_of_lt {a b : Byte} (f : AluOp) (ha : a.toNat < 8) (hb : b.toNat < 8) (s : State) :
    aluApply (.function f) a b s =
      .done (s.setReg ⟨a.toNat, ha⟩ (aluResult f (s.reg ⟨a.toNat, ha⟩) (s.reg ⟨b.toNat, hb⟩))) := by
  simp [aluApply, withReg_of_lt ha, withReg_of_lt hb]

/-- MUL completes with two register numbers (R66). -/
theorem exec_mul_of_lt {a b : Byte} (ha : a.toNat < 8) (hb : b.toNat < 8) (s : State) :
    exec (.mul a b) s =
      .next ((s.setReg ⟨a.toNat, ha⟩ (aluResult .mul (s.reg ⟨a.toNat, ha⟩) (s.reg ⟨b.toNat, hb⟩))).advance 3) := by
  simp [exec, execMul, aluApply_of_lt .mul ha hb]

/-- ADD completes with two register numbers (R67). -/
theorem exec_add_of_lt {a b : Byte} (ha : a.toNat < 8) (hb : b.toNat < 8) (s : State) :
    exec (.add a b) s =
      .next ((s.setReg ⟨a.toNat, ha⟩ (aluResult .add (s.reg ⟨a.toNat, ha⟩) (s.reg ⟨b.toNat, hb⟩))).advance 3) := by
  simp [exec, execAdd, aluApply_of_lt .add ha hb]

/-- Settles O49, from the equation of each instruction where it completes. -/
theorem instructionsComplete : Obligations.InstructionsComplete := by
  intro i s hform hpush hpop
  cases i with
  | hlt => exact ⟨_, rfl, rfl, rfl, rfl, rfl, nofun, nofun, fun _ => rfl⟩
  | ldi r imm =>
    have hr : r.toNat < 8 := by simpa [RegisterForm] using hform
    refine ⟨_, exec_ldi_of_lt hr imm s, rfl, rfl, rfl, rfl, ?_, nofun, fun _ => rfl⟩
    rintro _ _ ⟨⟩ _
    exact s.setReg_reg_same ⟨r.toNat, hr⟩ imm
  | prn r =>
    have hr : r.toNat < 8 := by simpa [RegisterForm] using hform
    refine ⟨_, exec_prn_of_lt hr s, rfl, rfl, rfl, rfl, nofun, ?_, fun _ => rfl⟩
    rintro _ ⟨⟩ _
    exact ⟨rfl, rfl⟩
  | push r =>
    have hr : r.toNat < 8 := by simpa [RegisterForm] using hform
    obtain ⟨hpos, hcell⟩ := hpush r rfl
    have address : pushAddress s = (s.regs[7].toNat - 1 : Nat) := (Int.ofNat_sub hpos).symm
    exact ⟨_, exec_push_of_cell hr address hcell, rfl, rfl, rfl, rfl, nofun, nofun, fun other => absurd rfl (other r)⟩
  | pop r =>
    have hr : r.toNat < 8 := by simpa [RegisterForm] using hform
    obtain ⟨hsp, hcell⟩ := hpop r rfl
    have newSp : popNewSp ⟨r.toNat, hr⟩ (s.load s.sp.toNat) s =
        ((if r.toNat = 7 then s.mem.read s.regs[7].toNat else s.regs[7]).toNat + 1 : Nat) := by
      simp only [popNewSp, spIndex, Fin.ext_iff]
      rfl
    exact ⟨_, exec_pop_of_cell hr hsp newSp hcell, rfl, rfl, rfl, rfl, nofun, nofun, fun _ => rfl⟩
  | mul a b =>
    obtain ⟨ha, hb⟩ : a.toNat < 8 ∧ b.toNat < 8 := by simpa [RegisterForm] using hform
    exact ⟨_, exec_mul_of_lt ha hb s, rfl, rfl, rfl, rfl, nofun, nofun, fun _ => rfl⟩
  | add a b =>
    obtain ⟨ha, hb⟩ : a.toNat < 8 ∧ b.toNat < 8 := by simpa [RegisterForm] using hform
    exact ⟨_, exec_add_of_lt ha hb s, rfl, rfl, rfl, rfl, nofun, nofun, fun _ => rfl⟩

end Sys2Proof.Machine
end

section
/-! The ALU (41_alu.md): the exact results of MUL and ADD modulo 256, and that no step raises UNSUPPORTED_OPERATION. -/

namespace Sys2Proof.Machine

/-! ### The results of MUL and ADD -/

/-- The width rule (R64). -/
@[simp] theorem narrow_toNat (n : Nat) : (narrow n).toNat = n % 256 := by
  simp [narrow]

/-- The function MUL (R63). -/
@[simp] theorem aluResult_mul_toNat (va vb : Byte) : (aluResult .mul va vb).toNat = va.toNat * vb.toNat % 256 :=
  narrow_toNat _

/-- The function ADD (R63). -/
@[simp] theorem aluResult_add_toNat (va vb : Byte) : (aluResult .add va vb).toNat = (va.toNat + vb.toNat) % 256 :=
  narrow_toNat _

/-- An instruction that completes by one register write and a PC advance of 3 leaves the value in that register and
changes nothing else. -/
theorem exec_regWrite_frame {i : Instr} {a v : Byte} {s : State} (ha : a.toNat < 8)
    (h : exec i s = .next ((s.setReg ⟨a.toNat, ha⟩ v).advance 3)) :
    ∃ t : State, exec i s = .next t ∧ t.regs[a.toNat] = v ∧
      t.erasePort = State.erasePort { s with regs := s.regs.set a.toNat t.regs[a.toNat] ha, pc := s.pc + 3 } := by
  have written : ((s.setReg ⟨a.toNat, ha⟩ v).advance 3).regs[a.toNat] = v := s.setReg_reg_same ⟨a.toNat, ha⟩ v
  refine ⟨_, h, written, ?_⟩
  rw [written]
  rfl

/-- Settles O18, from the equation of MUL where it completes and the width rule. -/
theorem mulResult : Obligations.MulResult := by
  intro a b s ha hb
  obtain ⟨t, stepped, written, frame⟩ := exec_regWrite_frame ha (exec_mul_of_lt ha hb s)
  exact ⟨t, stepped, (congrArg BitVec.toNat written).trans (aluResult_mul_toNat _ _), frame⟩

/-- Settles O19, from the equation of ADD where it completes and the width rule. -/
theorem addResult : Obligations.AddResult := by
  intro a b s ha hb
  obtain ⟨t, stepped, written, frame⟩ := exec_regWrite_frame ha (exec_add_of_lt ha hb s)
  exact ⟨t, stepped, (congrArg BitVec.toNat written).trans (aluResult_add_toNat _ _), frame⟩

/-! ### UNSUPPORTED_OPERATION -/

/-- The ALU given a foreign select raises UNSUPPORTED_OPERATION once both indices are register numbers (R63, R78). -/
theorem aluApply_other_of_lt {a b : Byte} (ha : a.toNat < 8) (hb : b.toNat < 8) (s : State) :
    aluApply .other a b s = .raised .unsupported s := by
  simp [aluApply, withReg_of_lt ha, withReg_of_lt hb]

/-- An instruction step keeps the fault code, or records one of the two that its checks raise (R76, R77). -/
theorem instructionStep_faultCode {s t : State} (hc : s.cfg.Valid) (h : instructionStep s = .next t) :
    t.fault.code = s.fault.code ∨ t.fault.code = .outOfBoundsAddress ∨ t.fault.code = .invalidRegisterIndex := by
  rcases instructionStep_cases hc h with
    ⟨-, -, halted⟩ | ⟨-, -, skipped⟩ | ⟨-, -, -, fault, -⟩ | ⟨c, op, u, -, rfl, cause⟩
  · obtain ⟨-, -, -, fault, -⟩ := State.fields_of_erasePort_eq halted
    exact .inl (congrArg FaultRecord.code fault)
  · obtain ⟨-, -, -, fault, -⟩ := State.fields_of_erasePort_eq skipped
    exact .inl (congrArg FaultRecord.code fault)
  · exact .inl (congrArg FaultRecord.code fault)
  · rcases cause with ⟨-, -, rfl⟩ | ⟨-, -, ⟨r, rfl, -⟩ | ⟨a, rfl, -⟩⟩
    · exact .inr (.inl rfl)
    · exact .inr (.inr rfl)
    · exact .inr (.inl rfl)

/-- No step brings UNSUPPORTED_OPERATION into the fault record (R65, R78). -/
theorem step_code_ne_unsupported {s t : State} (hne : s.fault.code ≠ .unsupportedOperation) (h : step s = .next t) :
    t.fault.code ≠ .unsupportedOperation := by
  obtain ⟨hc, ⟨m, later, -, hm⟩ | ⟨-, later, -, ⟨-, rfl⟩ | ⟨-, -, rfl⟩ | ⟨-, p, -, hstep⟩⟩⟩ := step_cases h
  · rcases hostMove_fault hm with ⟨-, cleared⟩ | same
    · simp [cleared, FaultRecord.clear]
    · rwa [same]
  · exact hne
  · exact hne
  · rcases instructionStep_faultCode (s := { s with inputs := later, stopPending := p }) hc hstep with
      same | address | index
    · rwa [same]
    · simp [address]
    · simp [index]

/-- Settles O47, from the ALU's foreign select and the codes a step can record. -/
theorem unsupportedNeverRaised : Obligations.UnsupportedNeverRaised :=
  ⟨fun _ _ s ha hb => aluApply_other_of_lt ha hb s, rfl, fun _ _ _ => ⟨rfl, rfl⟩,
    fun _ _ => step_code_ne_unsupported⟩

end Sys2Proof.Machine
end

section
/-! The control instructions (42_control.md): the full effect of HLT, LDI, PRN, PUSH and POP, the stack faults of PUSH
and POP, and that POP undoes PUSH. -/

namespace Sys2Proof.Machine

/-! ### HLT, LDI and PRN -/

/-- Settles O13. -/
theorem hltResult : Obligations.HltResult := fun _ => ⟨_, rfl, rfl⟩

/-- Settles O14, from the equation of LDI where it completes. -/
theorem ldiResult : Obligations.LdiResult := fun _ imm s hr => ⟨_, exec_ldi_of_lt hr imm s, rfl⟩

/-- Settles O15, from the equation of PRN where it completes. -/
theorem prnResult : Obligations.PrnResult := fun _ s hr => ⟨_, exec_prn_of_lt hr s, rfl⟩

/-! ### PUSH -/

/-- PUSH takes an address fault with a register number, when SP - 1 is no cell (R71, R76). -/
theorem exec_push_of_out {r : Byte} {s : State} (hr : r.toNat < 8)
    (hout : pushAddress s < 0 ∨ (s.cfg.memSize : Int) ≤ pushAddress s) :
    exec (.push r) s = .next (s.raise (.outOfBounds (pushAddress s)) (some s.cfg.opcPush)) := by
  simp [exec, execPush, withReg_of_lt hr, withCell_of_out hout]

/-- Settles O16, from the equation of PUSH where it completes; SP - 1 does not wrap there. -/
theorem pushResult : Obligations.PushResult := by
  intro r s hr hpos hcell
  have address : pushAddress s = (s.regs[7].toNat - 1 : Nat) := (Int.ofNat_sub hpos).symm
  have newSp : BitVec.ofNat 8 (s.regs[7].toNat - 1) = s.regs[7] - 1 := by bv_omega
  have stepped := exec_push_of_cell hr address hcell
  rw [newSp] at stepped
  exact ⟨_, stepped, rfl⟩

/-- Settles O21: SP - 1 as an exact integer is below 0 or at least MEM_SIZE. -/
theorem pushStackFault : Obligations.PushStackFault := by
  intro r s hr hsp
  have address : pushAddress s = (s.regs[7].toNat : Int) - 1 := rfl
  have hlt : s.regs[7].toNat < 256 := s.regs[7].isLt
  have hout : pushAddress s < 0 ∨ (s.cfg.memSize : Int) ≤ pushAddress s := by
    rcases hsp with zero | large
    · left; simp [address, zero]
    · omega
  obtain ⟨addr, frame⟩ :=
    (s.raise_raises s.cfg.opcPush (.outOfBounds (pushAddress s))).of_outOfBounds (by omega) (by omega)
  exact ⟨_, exec_push_of_out hr hout, addr.trans address, frame⟩

/-! ### POP -/

/-- The SP a POP leaves is one more than the popped byte for register 7, and than SP for the others (R72). -/
theorem popNewSp_eq {r : Byte} (hr : r.toNat < 8) (s : State) :
    popNewSp ⟨r.toNat, hr⟩ (s.load s.sp.toNat) s =
      ((if r.toNat = 7 then s.mem.read s.regs[7].toNat else s.regs[7]).toNat + 1 : Nat) := by
  simp only [popNewSp, spIndex, Fin.ext_iff]
  rfl

/-- POP takes an address fault with a register number, when SP is no cell (R72, R76). -/
theorem exec_pop_of_sp_out {r : Byte} {s : State} (hr : r.toNat < 8) (hsp : s.cfg.memSize ≤ s.sp.toNat) :
    exec (.pop r) s = .next (s.raise (.outOfBounds (popAddress s)) (some s.cfg.opcPop)) := by
  have hout : popAddress s < 0 ∨ (s.cfg.memSize : Int) ≤ popAddress s := .inr (Int.ofNat_le.2 hsp)
  simp [exec, execPop, withReg_of_lt hr, withCell_of_out hout]

/-- POP takes an address fault after its read with a register number, when SP is a cell and the new SP is none (R72,
R76). -/
theorem exec_pop_of_newSp_out {r : Byte} {s : State} {n : Nat} (hr : r.toNat < 8) (hsp : s.sp.toNat < s.cfg.memSize)
    (hn : popNewSp ⟨r.toNat, hr⟩ (s.load s.sp.toNat) s = n) (hout : s.cfg.memSize ≤ n) :
    exec (.pop r) s = .next ((s.afterRead s.sp.toNat).raise (.outOfBounds n) (some s.cfg.opcPop)) := by
  have read : popAddress s = s.sp.toNat := rfl
  have hout' : (n : Int) < 0 ∨ ((s.afterRead s.sp.toNat).cfg.memSize : Int) ≤ n := .inr (Int.ofNat_le.2 hout)
  simp [exec, execPop, withReg_of_lt hr, withCell_of_mem read hsp, hn, withCell_of_out hout']

/-- POP leaves one more than `base` in SP: the popped byte for register 7, SP for the others. -/
theorem exec_pop_of_base {r base : Byte} {s : State} (hr : r.toNat < 8) (hsp : s.sp.toNat < s.cfg.memSize)
    (hbase : (if r.toNat = 7 then s.mem.read s.regs[7].toNat else s.regs[7]) = base)
    (hcell : base.toNat + 1 < s.cfg.memSize) :
    exec (.pop r) s = .next ((((s.afterRead s.sp.toNat).setReg ⟨r.toNat, hr⟩ (s.load s.sp.toNat)).setReg spIndex
      (base + 1)).advance 2) := by
  have newSp : BitVec.ofNat 8 (base.toNat + 1) = base + 1 := by bv_omega
  rw [← newSp]
  exact exec_pop_of_cell hr hsp (hbase ▸ popNewSp_eq hr s) hcell

/-- Of two writes to one register the second stands. -/
theorem State.setReg_setReg (s : State) (i : RegIdx) (v w : Byte) : (s.setReg i v).setReg i w = s.setReg i w := by
  simp [State.setReg]

/-- Settles O17: SP stands when the register is not R7; for R7 the popped byte is overwritten by its successor. -/
theorem popResult : Obligations.PopResult := by
  intro r s hsp
  constructor
  · intro hr hcell
    exact ⟨_, exec_pop_of_base (by omega) hsp (if_neg (by omega)) hcell, rfl⟩
  · intro hr hcell
    have popsSp : (⟨r.toNat, by omega⟩ : RegIdx) = spIndex := Fin.ext hr
    have stepped := exec_pop_of_base (by omega) hsp (if_pos hr) hcell
    rw [popsSp, State.setReg_setReg] at stepped
    exact ⟨_, stepped, rfl⟩

/-- Settles O22, by the check that fails: of SP, or after the read of the new SP. -/
theorem popStackFault : Obligations.PopStackFault := by
  intro r s bad hr hbad
  have raises : ∃ t, exec (.pop r) s = .next t ∧ s.Raises s.cfg.opcPop (.outOfBounds bad) t := by
    rcases hbad with ⟨hsp, rfl⟩ | ⟨hsp, hout, rfl⟩
    · exact ⟨_, exec_pop_of_sp_out hr hsp, s.raise_raises _ _⟩
    · exact ⟨_, exec_pop_of_newSp_out hr hsp (popNewSp_eq hr s) hout, _, s.afterRead_erasePort _, rfl⟩
  have hle : bad ≤ 256 := by
    rcases hbad with ⟨-, rfl⟩ | ⟨-, -, rfl⟩
    · exact Nat.le_of_lt s.regs[7].isLt
    · exact BitVec.isLt _
  obtain ⟨t, stepped, raised⟩ := raises
  obtain ⟨addr, frame⟩ := raised.of_outOfBounds (by omega) (by omega)
  exact ⟨t, stepped, addr, frame⟩

/-! ### PUSH, then POP -/

/-- Writing SP, another register and then the old SP leaves only the other register's write. -/
theorem set_sp_set_set_sp (regs : Vector Byte 8) {i : Nat} (hi : i < 7) (sp v : Byte) :
    ((regs.set 7 sp).set i v).set 7 regs[7] = regs.set i v := by
  rw [Vector.set_comm _ _ (by omega), Vector.set_set, Vector.set_getElem_self]

/-- Settles O46, from the full effects of PUSH and POP: POP reads the cell PUSH wrote, and SP - 1 + 1 is SP. -/
theorem pushThenPop : Obligations.PushThenPop := by
  intro r r' s hr hr' hwf hpos hcell
  obtain ⟨t, pushed, afterPush⟩ := pushResult r s (by omega) hpos (by omega)
  obtain ⟨regs, -, -, -, mem, -, -, -, -, cfg⟩ := State.fields_of_erasePort_eq afterPush
  dsimp only at regs mem cfg
  have sp : t.regs[7] = s.regs[7] - 1 := by simp [regs]
  have spNat : t.regs[7].toNat = s.regs[7].toNat - 1 := by rw [sp]; bv_omega
  have value : t.mem.read t.regs[7].toNat = s.regs[r.toNat] := by
    rw [mem, spNat, Memory.read_write hwf, if_pos rfl]
    exact Vector.getElem_set_ne _ _ (by omega)
  obtain ⟨popsBelowSp, -⟩ := popResult r' t (by rw [spNat, cfg]; omega)
  obtain ⟨u, popped, afterPop⟩ := popsBelowSp hr' (by rw [spNat, cfg]; omega)
  refine ⟨t, u, pushed, popped, ?_⟩
  calc u.regs
    _ = (t.regs.set r'.toNat (t.mem.read t.regs[7].toNat)).set 7 (t.regs[7] + 1) :=
        (State.fields_of_erasePort_eq afterPop).1
    _ = ((s.regs.set 7 (s.regs[7] - 1)).set r'.toNat s.regs[r.toNat]).set 7 s.regs[7] := by
        rw [value, sp, BitVec.sub_add_cancel, regs]
    _ = s.regs.set r'.toNat s.regs[r.toNat] := set_sp_set_set_sp s.regs hr' _ _

end Sys2Proof.Machine
end

section
/-! The exceptions (60_exceptions.md): the index fault of every instruction, the precision of a fault, and the stop and
the resume of the host. -/

namespace Sys2Proof.Machine

/-! ### The index fault -/

/-- LDI takes an index fault whatever its literal, with an index of 8 or more (R77). -/
theorem exec_ldi_of_ge {r : Byte} (hr : 8 ≤ r.toNat) (imm : Byte) (s : State) :
    exec (.ldi r imm) s = .next (s.raise (.invalidIndex r) (some opcLdi)) := by
  simp [exec, execLdi, withReg_of_ge hr]

/-- PRN takes an index fault with an index of 8 or more (R77). -/
theorem exec_prn_of_ge {r : Byte} (hr : 8 ≤ r.toNat) (s : State) :
    exec (.prn r) s = .next (s.raise (.invalidIndex r) (some opcPrn)) := by
  simp [exec, execPrn, withReg_of_ge hr]

/-- PUSH takes an index fault with an index of 8 or more, before it looks at SP (R77, R81). -/
theorem exec_push_of_ge {r : Byte} (hr : 8 ≤ r.toNat) (s : State) :
    exec (.push r) s = .next (s.raise (.invalidIndex r) (some s.cfg.opcPush)) := by
  simp [exec, execPush, withReg_of_ge hr]

/-- POP takes an index fault with an index of 8 or more, before it looks at SP (R77, R81). -/
theorem exec_pop_of_ge {r : Byte} (hr : 8 ≤ r.toNat) (s : State) :
    exec (.pop r) s = .next (s.raise (.invalidIndex r) (some s.cfg.opcPop)) := by
  simp [exec, execPop, withReg_of_ge hr]

/-- The ALU raises for the first of its indices that is no register number, whatever its select (R63, R77). -/
theorem aluApply_of_ge (f : AluSelect) {a b bad : Byte} (s : State)
    (h : (8 ≤ a.toNat ∧ bad = a) ∨ (a.toNat < 8 ∧ 8 ≤ b.toNat ∧ bad = b)) :
    aluApply f a b s = .raised (.invalidIndex bad) s := by
  rcases h with ⟨ha, rfl⟩ | ⟨ha, hb, rfl⟩
  · exact withReg_of_ge ha s _
  · exact (withReg_of_lt ha s _).trans (withReg_of_ge hb s _)

/-- Settles O20, from the equation of each instruction where an index is no register number, and that of LDI where it
completes. -/
theorem exec_indexFault : Obligations.IndexFault := by
  refine ⟨fun r s hr => ⟨fun imm => ⟨_, exec_ldi_of_ge hr imm s, rfl⟩, ⟨_, exec_prn_of_ge hr s, rfl⟩,
    ⟨_, exec_push_of_ge hr s, rfl⟩, ⟨_, exec_pop_of_ge hr s, rfl⟩⟩, fun a b bad s hbad => ⟨?_, ?_⟩,
    fun r imm s t hr h => ?_⟩
  · exact ⟨_, congrArg (finish s.cfg.opcMul 2) (aluApply_of_ge _ s hbad), rfl⟩
  · exact ⟨_, congrArg (finish s.cfg.opcAdd 2) (aluApply_of_ge _ s hbad), rfl⟩
  · rw [exec_ldi_of_lt hr] at h
    cases h
    rfl

/-! ### The precision of a fault -/

/-- A fault has a code other than NONE (R74). -/
theorem FaultCause.code_ne_none (c : FaultCause) : c.code ≠ .none := by cases c <;> nofun

/-- A cause that is no address fault leaves `fault_addr` 0 (R79). -/
theorem FaultCause.addr_eq_zero {c : FaultCause} (h : c.code ≠ .outOfBoundsAddress) : c.addr = 0 := by
  cases c with
  | outOfBounds a => exact absurd rfl h
  | invalidIndex r => rfl
  | unsupported => rfl

/-- A cause that is no index fault leaves `fault_index` 0 (R79). -/
theorem FaultCause.index_eq_zero {c : FaultCause} (h : c.code ≠ .invalidRegisterIndex) : c.index = 0 := by
  cases c with
  | outOfBounds a => rfl
  | invalidIndex r => exact absurd rfl h
  | unsupported => rfl

/-- An instruction step that ends in FAULTED has raised a fault in the state it started from, with the opcode byte
exactly when the PC lies in memory (R79, R80). -/
theorem instructionStep_faulted {s t : State} (hc : s.cfg.Valid) (hr : s.runState = .running)
    (h : instructionStep s = .next t) (ht : t.runState = .faulted) :
    ∃ c : FaultCause, t.erasePort = (s.raise c
      (if s.pc.toNat < s.cfg.memSize then some (s.load s.pc.toNat) else none)).erasePort := by
  rcases instructionStep_cases hc h with
    ⟨-, -, halted⟩ | ⟨-, -, skipped⟩ | ⟨-, -, run, -⟩ | ⟨c, op, u, port, rfl, cause⟩
  · obtain ⟨-, -, run, -⟩ := State.fields_of_erasePort_eq halted
    simp [ht] at run
  · obtain ⟨-, -, run, -⟩ := State.fields_of_erasePort_eq skipped
    simp [ht, hr] at run
  · simp [ht, hr] at run
  · refine ⟨c, ?_⟩
    rw [State.raise_erasePort port]
    rcases cause with ⟨rfl, hp, -⟩ | ⟨rfl, hp, -⟩
    · rw [if_neg (Nat.not_lt.2 hp)]
    · rw [if_pos hp]

/-- Settles O28: the step has raised a fault in the state before, and the record is that of the fault's cause. -/
theorem faultIsPrecise : Obligations.FaultIsPrecise := by
  intro s t hc hr h ht
  obtain ⟨c, raised⟩ := instructionStep_faulted hc hr h ht
  obtain ⟨-, -, -, record, -⟩ := State.fields_of_erasePort_eq raised
  rw [raised, record]
  refine ⟨rfl, c.code_ne_none, rfl, ?_, ?_, FaultCause.addr_eq_zero, FaultCause.index_eq_zero⟩
  · by_cases hp : s.pc.toNat < s.cfg.memSize <;> simp [faultRecord, hp]
  · by_cases hp : s.pc.toNat < s.cfg.memSize <;> simp [faultRecord, hp, State.load]

/-! ### The stop -/

/-- A pending stop that is not yet due lets the next instruction run, and is one instruction nearer (R85, log 7). -/
theorem State.AtInstruction.withStop_runsInstruction {s : State} (h : s.AtInstruction) (k : Nat) :
    (s.withStop (some (k + 1))).RunsInstruction (s.withStop (some k)) where
  running := h.running
  silent := .inr ⟨h.silent, h.silent⟩
  stop := rfl
  same := rfl

/-- A stop that is due makes STOPPED and changes nothing else (R85). -/
theorem step_withStop_zero {s : State} (hc : s.cfg.Valid) (h : s.AtInstruction) :
    step (s.withStop (some 0)) = .next (s.setRun .stopped) := by
  obtain ⟨-, due, -⟩ := step_engineTurn (s.withStop (some 0)) [] hc h.running (.inr ⟨h.silent, rfl⟩)
  rw [due rfl, State.withStop, State.setRun, ← h.silent, ← h.noStop]

/-- A stop that is not yet due changes nothing in a step but the request (R85). -/
theorem step_withStop_succ {s t : State} (k : Nat) (hc : s.cfg.Valid) (h : s.AtInstruction)
    (stepped : step s = .next t) :
    step (s.withStop (some (k + 1))) = .next (t.withStop (some k)) := by
  rw [(h.withStop_runsInstruction k).step_eq hc]
  exact instructionStep_withStop (some k) (step_of_atInstruction hc h ▸ stepped)

/-- A run with a stop pending after `k` instruction steps, against the `k` steps of the run without it: where that one
is RUNNING still, this one is STOPPED there; where it has ended, this one has too, the request still pending. -/
theorem run_withStop {k : Nat} {s u : State} (hc : s.cfg.Valid) (h : s.AtInstruction)
    (ran : Sys2Proof.core.run k s = .next u) :
    (u.runState = .running ∧ Sys2Proof.core.run (k + 1) (s.withStop (some k)) = .next (u.setRun .stopped)) ∨
    (u.runState ≠ .running ∧ ∃ p, Sys2Proof.core.run (k + 1) (s.withStop (some k)) = .next (u.withStop p)) := by
  induction k generalizing s with
  | zero =>
    cases ran
    exact .inl ⟨h.running, run_succ 0 (step_withStop_zero hc h)⟩
  | succ k ih =>
    obtain ⟨t, stepped, cfg, silent, next⟩ := step_atInstruction_cases hc h
    rw [run_succ (k + 1) (step_withStop_succ k hc h stepped)]
    rw [run_succ k stepped] at ran
    rcases next with ended | ⟨atNext, -, -⟩
    · have notRunning : t.runState ≠ .running := by rcases ended with hr | hr <;> simp [hr]
      rw [run_of_ended k (cfg ▸ hc) silent ended] at ran
      cases ran
      exact .inr ⟨notRunning, some k, run_of_ended (s := u.withStop (some k)) (k + 1) (cfg ▸ hc) silent ended⟩
    · exact ih (cfg ▸ hc) atNext ran

/-- Settles O35, by induction on the steps before the stop: an instruction step does not look at a pending stop. -/
theorem stopIsTransparent : Obligations.StopIsTransparent := by
  intro k s u hc hr silent stop ran
  have withStop : (s.withStop none).withStop (some k) = s := by rw [← stop]; rfl
  have compared := run_withStop (s := s.withStop none) hc ⟨hr, rfl, silent⟩ ran
  rw [withStop] at compared
  rcases compared with ⟨running, stopped⟩ | ⟨notRunning, p, ended⟩
  · exact ⟨fun _ => ⟨_, stopped, rfl⟩, fun hu => absurd running hu⟩
  · exact ⟨fun hu => absurd hu notRunning, fun _ => ⟨_, p, ended, rfl⟩⟩

/-- Settles O36, from the two cases of a stop request's move. -/
theorem stopRequestMove : Obligations.StopRequestMove := by
  intro s after later hc hi
  rw [step_of_host_turn hc hi]
  exact ⟨fun hr => congrArg Host.Outcome.next (State.requestStop_running { s with inputs := later } after hr),
    fun hr => congrArg Host.Outcome.next (State.requestStop_not_running { s with inputs := later } after hr)⟩

/-! ### The resume -/

/-- Settles O37, from the two cases of a resume's move. -/
theorem resumeMove : Obligations.ResumeMove := by
  intro s later hc hi
  rw [step_of_host_turn hc hi]
  exact ⟨fun hr => congrArg Host.Outcome.next (State.resume_stopped { s with inputs := later } hr),
    fun hr => congrArg Host.Outcome.next (State.resume_not_stopped { s with inputs := later } hr)⟩

end Sys2Proof.Machine
end

section
/-! The reset (70_reset_and_hazards.md): its values, and that nothing else leaves HALTED and FAULTED. -/

namespace Sys2Proof.Machine

/-- A reset without an image is `applyReset` of the state at its turn, whatever the run state (R90). -/
theorem step_of_reset_turn {s : State} {later : List (Option HostInput)} (hc : s.cfg.Valid)
    (hi : s.inputs = some (.reset none) :: later) : step s = .next { s with inputs := later }.applyReset :=
  step_of_host_turn hc hi

/-- Of the changes of the run state only a reset starts in HALTED or FAULTED: HLT, a fault and a stop start in
RUNNING, and a resume in STOPPED (R90). -/
theorem reset_of_leaves_ended {s t : State} (ended : s.runState = .halted ∨ s.runState = .faulted)
    (stepped : step s = .next t) (changed : t.runState ≠ s.runState) :
    ∃ image later, s.inputs = some (.reset image) :: later := by
  have notRunning : s.runState ≠ .running := by rcases ended with hr | hr <;> simp [hr]
  have notStopped : s.runState ≠ .stopped := by rcases ended with hr | hr <;> simp [hr]
  rcases runStateChanges s t stepped changed with
    ⟨running, -⟩ | ⟨running, -⟩ | ⟨running, -⟩ | ⟨stopped, -⟩ | ⟨-, reset⟩
  · exact absurd running notRunning
  · exact absurd running notRunning
  · exact absurd running notRunning
  · exact absurd stopped notStopped
  · exact reset

/-- Settles O38, from the reset's move and the list of the run state's changes. -/
theorem resetMove : Obligations.ResetMove := by
  refine ⟨fun s later hc hi => ?_, fun _ _ => reset_of_leaves_ended⟩
  exact ⟨_, step_of_reset_turn hc hi, State.applyReset_reg _, rfl, rfl, rfl, rfl, rfl, rfl, rfl, rfl⟩

end Sys2Proof.Machine
end
